-- ==== Sys2Proof/Word.lean ====
section
/-! DEFINITION. The word and the byte of the machine (00_scope.md R2). -/

namespace Sys2Proof

/-- A 16-bit word: an instruction, a register, an address, a memory word (R2). -/
abbrev Word := BitVec 16

/-- Half a word; the "MSB" byte is bits 15:8 and the "LSB" byte is bits 7:0 (20_memory.md R34). -/
abbrev Byte := BitVec 8

end Sys2Proof
end

