-- ==== Sys2Proof/Config.lean ====
section
/-! DEFINITION. What an implementation fixes (00_scope.md section 4) and the free values, constants
without a body that stand for what the spec leaves to the platform or does not state. -/

namespace Sys2Proof

/-- One access to banked memory, in the record of 20_memory.md R46 (log entry 8). -/
inductive BankedEvent where
  /-- A read of the address, and the value the platform gave. -/
  | read (addr value : Word)
  /-- A write of the value to the address. -/
  | write (addr value : Word)
deriving DecidableEq, Repr

/-- COPY_WIDTH_MODE: what a COPY does when the copy width is not zero (41_copy.md R94). -/
inductive CopyWidthMode where
  /-- It is refused. -/
  | refuse
  /-- The candidate semantics R94 writes down. -/
  | ascending
deriving DecidableEq, Repr

/-- CLASS_BIT: how a word's class is told (30_encoding.md R51; log entry 20). -/
inductive ClassBit where
  /-- Decision D1: bit 15 is the class bit. -/
  | bit15
  /-- Decision D1 is not adopted: nothing tells the class of a word with bit 15 set (R62). -/
  | notAdopted
deriving DecidableEq, Repr

/-- The parameters of 00_scope.md section 4 that are plain data. State carries them and no step
changes them, so that a claim about every state is a claim about every setting (log entry 7). -/
structure Config where
  /-- LOCAL_WORDS: local addresses below it are implemented (20_memory.md R41). -/
  localWords : Nat
  /-- COPY_WIDTH_MODE (41_copy.md R94; log entry 10). -/
  copyWidthMode : CopyWidthMode
  /-- FLAGS_ON_SKIP: whether an ALU instruction whose effect fails still writes the flags and the
  overflow register (40_common_operands.md R74; log entry 14). -/
  flagsOnSkip : Bool
  /-- SIGNED_G: the value of control bit G that means signed (10_state.md R20; log entry 15). -/
  signedG : Bool
  /-- CLASS_BIT (30_encoding.md R51; log entry 20). -/
  classBit : ClassBit
deriving DecidableEq, Repr

/-- FREE VALUE. BANKED: what a read of banked memory at the address returns, after the accesses of
the record (20_memory.md R46, "any 16-bit value, a draw"; log entry 8). -/
opaque Config.bankedRead : List BankedEvent → Word → Word

/-- FREE VALUE. DIV_BY_ZERO: the result of dividing the dividend by zero, in signed mode or not
(42_alu.md R117; log entry 9). -/
opaque Config.divByZeroResult : Bool → Word → Word

/-- FREE VALUE. DIV_BY_ZERO: the overflow register after dividing the dividend by zero
(42_alu.md R117; log entry 9). -/
opaque Config.divByZeroOvf : Bool → Word → Word

end Sys2Proof
end

