-- ==== Sys2Proof/Syntax.lean ====
section
/-! DEFINITION. The instructions: one constructor of `Instr` per row of spec/opcode_table.json. -/

namespace Sys2Proof

/-- The general registers r1, r2 and r3 (10_state.md R10). -/
inductive Reg where
  | r1 | r2 | r3
deriving DecidableEq, Repr

/-- The effect argument (30_encoding.md R59). -/
inductive Effect where
  /-- `0.eff`, "store if zero". -/
  | ifZero
  /-- `1.eff`, "store if not zero". -/
  | ifNotZero
  /-- `2.eff`, "store if negative". -/
  | ifNegative
  /-- `3.eff`, "store". -/
  | always
deriving DecidableEq, Repr

/-- The source argument (30_encoding.md R57). -/
inductive Src where
  /-- `0.reg`, the address of this instruction, plus the immediate. -/
  | pc
  /-- `n.mem`, the word at the register plus the immediate. -/
  | mem (r : Reg)
  /-- `4.val`, the immediate itself. -/
  | val
  /-- `n.reg`, the register plus the immediate. -/
  | reg (r : Reg)
deriving DecidableEq, Repr

/-- The destination argument (30_encoding.md R58). -/
inductive Dst where
  /-- `0.reg`, the program counter. -/
  | pc
  /-- `n.mem`, the word at the address the register holds. -/
  | mem (r : Reg)
  /-- `4.reg`, the control register. -/
  | cr
  /-- `n.reg`, the register. -/
  | reg (r : Reg)
deriving DecidableEq, Repr

/-- `memS` of 30_encoding.md R53. -/
def Src.isMem : Src → Bool
  | .mem _ => true
  | .pc => false
  | .val => false
  | .reg _ => false

/-- `memD` of 30_encoding.md R53. -/
def Dst.isMem : Dst → Bool
  | .mem _ => true
  | .pc => false
  | .cr => false
  | .reg _ => false

/-- `hasM` of 30_encoding.md R53: whether the instruction has an increment bit. -/
def hasM (d : Dst) (s : Src) : Bool := d.isMem || s.isMem

/-- The arguments that COPY and ALU instructions share (30_encoding.md R52 to R56). `imm` is the
immediate after its extension to 16 bits (R56); `inc` is the increment bit M, false where the
instruction has none. -/
structure Args where
  eff : Effect
  dst : Dst
  src : Src
  inc : Bool
  imm : Word
deriving DecidableEq, Repr

/-- The instructions, in the order of the opcode table. -/
inductive Instr where
  /-- `halt` (41_copy.md R91). -/
  | halt (eff : Effect)
  /-- `copy` (41_copy.md R90). -/
  | copy (a : Args)
  /-- `compute 0.op`, INV (42_alu.md R104). -/
  | inv (a : Args)
  /-- `compute 1.op`, AND (R105). -/
  | and (a : Args)
  /-- `compute 2.op`, OR (R106). -/
  | or (a : Args)
  /-- `compute 3.op`, XOR (R107). -/
  | xor (a : Args)
  /-- `compute 4.op`, negate (R108). -/
  | neg (a : Args)
  /-- `compute 5.op`, shift left (R109). -/
  | shl (a : Args)
  /-- `compute 6.op`, shift right (R110). -/
  | shr (a : Args)
  /-- `compute 7.op`, swap bytes (R111). -/
  | swap (a : Args)
  /-- `compute 8.op`, zero LSB (R112). -/
  | zeroLsb (a : Args)
  /-- `compute 9.op`, zero MSB (R113). -/
  | zeroMsb (a : Args)
  /-- `compute A.op`, add (R114). -/
  | add (a : Args)
  /-- `compute B.op`, subtract (R115). -/
  | sub (a : Args)
  /-- `compute C.op`, multiply (R116). -/
  | mul (a : Args)
  /-- `compute D.op`, divide (R117). -/
  | div (a : Args)
  /-- `compute E.op`, page boundary (R118). -/
  | page (a : Args)
  /-- `compute F.op`, add the overflow register (R119). -/
  | addOvf (a : Args)
deriving DecidableEq, Repr

end Sys2Proof
end

