-- ==== Sys2Proof/WellFormed.lean ====
section
/-! DEFINITION. The checks an instruction meets when some word encodes it (30_encoding.md R53, R56,
R61). -/

namespace Sys2Proof

/-- The two instruction classes, which differ in the width of their immediate (30_encoding.md R51). -/
inductive Class where
  | copy | alu
deriving DecidableEq, Repr

/-- The least immediate of the range table after 30_encoding.md R56. -/
def immMin (c : Class) (d : Dst) (s : Src) : Int :=
  if s.isMem then 0
  else match c, d.isMem with
    | .copy, true => -32
    | .copy, false => -64
    | .alu, true => -2
    | .alu, false => -4

/-- The greatest immediate of the range table after 30_encoding.md R56. -/
def immMax (c : Class) (d : Dst) (s : Src) : Int :=
  if s.isMem then (match c with | .copy => 63 | .alu => 3)
  else match c, d.isMem with
    | .copy, true => 31
    | .copy, false => 63
    | .alu, true => 1
    | .alu, false => 3

/-- The immediate lies in the range its class and arguments admit (R56). -/
def immFits (c : Class) (a : Args) : Bool :=
  decide (immMin c a.dst a.src ≤ a.imm.toInt) && decide (a.imm.toInt ≤ immMax c a.dst a.src)

/-- "Specifying an increment is illegal" where neither argument is `mem` (R53). -/
def incAllowed (a : Args) : Bool := !a.inc || hasM a.dst a.src

/-- COPY of the program counter to itself with offset 0 is HALT, no COPY (R61). -/
def notHaltForm (a : Args) : Bool := !(a.dst == .pc && a.src == .pc && a.imm == 0#16)

/-- The arguments some ALU word encodes. -/
def aluArgsWf (a : Args) : Bool := immFits .alu a && incAllowed a

/-- The arguments some COPY word encodes. -/
def copyArgsWf (a : Args) : Bool := immFits .copy a && incAllowed a && notHaltForm a

/-- An instruction is well formed when some word encodes it. -/
def Instr.wf : Instr → Bool
  | .halt _ => true
  | .copy a => copyArgsWf a
  | .inv a => aluArgsWf a
  | .and a => aluArgsWf a
  | .or a => aluArgsWf a
  | .xor a => aluArgsWf a
  | .neg a => aluArgsWf a
  | .shl a => aluArgsWf a
  | .shr a => aluArgsWf a
  | .swap a => aluArgsWf a
  | .zeroLsb a => aluArgsWf a
  | .zeroMsb a => aluArgsWf a
  | .add a => aluArgsWf a
  | .sub a => aluArgsWf a
  | .mul a => aluArgsWf a
  | .div a => aluArgsWf a
  | .page a => aluArgsWf a
  | .addOvf a => aluArgsWf a

end Sys2Proof
end

