-- ==== Sys2Proof/Decode.lean ====
section
/-! DEFINITION. The decoder and the encoder (30_encoding.md R50 to R62). Bit 15 is the leftmost
character of a printed pattern (decision D2, log entry 1). -/

namespace Sys2Proof

/-- The class bit of a class: 0 for COPY, 1 for ALU (R51, decision D1). -/
def Class.bit : Class → BitVec 1
  | .copy => 0b0#1
  | .alu => 0b1#1

/-- CLASS_BIT, the class test: a word with the class bit of COPY is a COPY, any other an ALU word where
decision D1 is adopted and of no known class where it is not (R51, R62; log entry 20). -/
def classOf (r : ClassBit) (w : Word) : Option Class :=
  if w.extractLsb' 15 1 = Class.copy.bit then some .copy
  else
    match r with
    | .bit15 => some .alu
    | .notAdopted => none

/-- E = w[14:13] (R52, R59). -/
def effectOf (w : Word) : Effect :=
  match w.extractLsb' 13 2 with
  | 0b00#2 => .ifZero
  | 0b01#2 => .ifNotZero
  | 0b10#2 => .ifNegative
  | _ => .always

/-- D = w[12:10] (R52, R58). -/
def dstOf (w : Word) : Dst :=
  match w.extractLsb' 10 3 with
  | 0b000#3 => .pc
  | 0b001#3 => .mem .r1
  | 0b010#3 => .mem .r2
  | 0b011#3 => .mem .r3
  | 0b100#3 => .cr
  | 0b101#3 => .reg .r1
  | 0b110#3 => .reg .r2
  | _ => .reg .r3

/-- S = w[9:7] (R52, R57). -/
def srcOf (w : Word) : Src :=
  match w.extractLsb' 7 3 with
  | 0b000#3 => .pc
  | 0b001#3 => .mem .r1
  | 0b010#3 => .mem .r2
  | 0b011#3 => .mem .r3
  | 0b100#3 => .val
  | 0b101#3 => .reg .r1
  | 0b110#3 => .reg .r2
  | _ => .reg .r3

/-- The immediate from its field: unsigned if the source is a `mem` argument, signed otherwise
(R56). -/
def extendImm {n : Nat} (s : Src) (raw : BitVec n) : Word :=
  if s.isMem then raw.zeroExtend 16 else raw.signExtend 16

/-- The arguments of a word of the class: formats C6 and C7 (R54), A2 and A3 (R55). -/
def argsOf (c : Class) (w : Word) : Args :=
  let d := dstOf w
  let s := srcOf w
  if hasM d s then
    { eff := effectOf w, dst := d, src := s, inc := w.getLsbD 6,
      imm := match c with
        | .copy => extendImm s (w.extractLsb' 0 6)
        | .alu => extendImm s (w.extractLsb' 4 2) }
  else
    { eff := effectOf w, dst := d, src := s, inc := false,
      imm := match c with
        | .copy => extendImm s (w.extractLsb' 0 7)
        | .alu => extendImm s (w.extractLsb' 4 3) }

/-- The ALU instruction of the opcode field w[3:0] (R60). -/
def aluOf (op : BitVec 4) (a : Args) : Instr :=
  match op with
  | 0x0#4 => .inv a
  | 0x1#4 => .and a
  | 0x2#4 => .or a
  | 0x3#4 => .xor a
  | 0x4#4 => .neg a
  | 0x5#4 => .shl a
  | 0x6#4 => .shr a
  | 0x7#4 => .swap a
  | 0x8#4 => .zeroLsb a
  | 0x9#4 => .zeroMsb a
  | 0xA#4 => .add a
  | 0xB#4 => .sub a
  | 0xC#4 => .mul a
  | 0xD#4 => .div a
  | 0xE#4 => .page a
  | _ => .addOvf a

/-- The instruction of a word of the class. HALT is tested before COPY (R61). -/
def instrOf (c : Class) (w : Word) : Instr :=
  match c with
  | .copy => if w &&& 0x9FFF#16 = 0#16 then .halt (effectOf w) else .copy (argsOf .copy w)
  | .alu => aluOf (w.extractLsb' 0 4) (argsOf .alu w)

/-- The instruction of a word under CLASS_BIT; where decision D1 is adopted every word is one (R62). -/
def decodeWord (r : ClassBit) (w : Word) : Option Instr := (classOf r w).map (fun c => instrOf c w)

/-- Why the decoder answers no instruction. -/
inductive DecodeReject where
  /-- There is no word to decode. -/
  | noWord
  /-- The word has bit 15 set and CLASS_BIT does not say what that means (R62). -/
  | unknownClass (word : Word)
deriving DecidableEq, Repr

/-- The first instruction of a sequence of words and the words after it. An instruction is exactly
one word (R50). -/
def decode (r : ClassBit) : List Word → Except DecodeReject (Instr × List Word)
  | [] => .error .noWord
  | w :: rest =>
    match decodeWord r w with
    | some i => .ok (i, rest)
    | none => .error (.unknownClass w)

/-- The code of an effect (R59). -/
def Effect.bits : Effect → BitVec 2
  | .ifZero => 0b00#2
  | .ifNotZero => 0b01#2
  | .ifNegative => 0b10#2
  | .always => 0b11#2

/-- The code of a destination (R58). -/
def Dst.bits : Dst → BitVec 3
  | .pc => 0b000#3
  | .mem .r1 => 0b001#3
  | .mem .r2 => 0b010#3
  | .mem .r3 => 0b011#3
  | .cr => 0b100#3
  | .reg .r1 => 0b101#3
  | .reg .r2 => 0b110#3
  | .reg .r3 => 0b111#3

/-- The code of a source (R57). -/
def Src.bits : Src → BitVec 3
  | .pc => 0b000#3
  | .mem .r1 => 0b001#3
  | .mem .r2 => 0b010#3
  | .mem .r3 => 0b011#3
  | .val => 0b100#3
  | .reg .r1 => 0b101#3
  | .reg .r2 => 0b110#3
  | .reg .r3 => 0b111#3

/-- The word of a COPY (R54). -/
def encodeCopy (a : Args) : Word :=
  let low : BitVec 7 :=
    if hasM a.dst a.src then BitVec.ofBool a.inc ++ a.imm.extractLsb' 0 6 else a.imm.extractLsb' 0 7
  Class.copy.bit ++ a.eff.bits ++ a.dst.bits ++ a.src.bits ++ low

/-- The word of an ALU instruction (R55). -/
def encodeAlu (op : BitVec 4) (a : Args) : Word :=
  let mid : BitVec 3 :=
    if hasM a.dst a.src then BitVec.ofBool a.inc ++ a.imm.extractLsb' 0 2 else a.imm.extractLsb' 0 3
  Class.alu.bit ++ a.eff.bits ++ a.dst.bits ++ a.src.bits ++ mid ++ op

/-- The word of an instruction, with the class bit of decision D1; meant for well-formed ones. -/
def encodeWord : Instr → Word
  | .halt e => Class.copy.bit ++ e.bits ++ 0#13
  | .copy a => encodeCopy a
  | .inv a => encodeAlu 0x0 a
  | .and a => encodeAlu 0x1 a
  | .or a => encodeAlu 0x2 a
  | .xor a => encodeAlu 0x3 a
  | .neg a => encodeAlu 0x4 a
  | .shl a => encodeAlu 0x5 a
  | .shr a => encodeAlu 0x6 a
  | .swap a => encodeAlu 0x7 a
  | .zeroLsb a => encodeAlu 0x8 a
  | .zeroMsb a => encodeAlu 0x9 a
  | .add a => encodeAlu 0xA a
  | .sub a => encodeAlu 0xB a
  | .mul a => encodeAlu 0xC a
  | .div a => encodeAlu 0xD a
  | .page a => encodeAlu 0xE a
  | .addOvf a => encodeAlu 0xF a

/-- The words of an instruction: one (R50). -/
def encode (i : Instr) : List Word := [encodeWord i]

/-- The word whose bits are the low `nbits` bits of `w`, every bit above them 0. -/
def tableWord (nbits w : Nat) : Word := BitVec.ofNat 16 (w % 2 ^ nbits)

/-- The instruction the decoder reads from an instruction whose bits are `w`, numbered as the opcode
table numbers them, with CLASS_BIT as the table has it. -/
def decodeTableWord (nbits w : Nat) : Option Instr :=
  match decode .bit15 [tableWord nbits w] with
  | .ok (i, _) => some i
  | .error _ => none

end Sys2Proof
end

