-- ==== Sys2Proof/Machine/Launch.lean ====
section
/-! DEFINITION. The state at the start of a run, LAUNCH, where the spec leaves it open
(10_state.md R28; 70_reset_and_hazards.md R150, R151; log entries 2 to 4, 7, 10, 14, 15, 20). -/

namespace Sys2Proof.Machine

/-- DESIGN CHOICE (log entry 2): `LAUNCH.pc`, the value R151 uses. -/
def launchPc : Word := 0x0000#16

/-- DESIGN CHOICE (log entry 2): `LAUNCH.cr`, the value R151 uses; H = 0 and cr[15:10] = 0 are the
spec's (R28). -/
def launchCr : Word := 0x0000#16

/-- DESIGN CHOICE (log entries 3 and 4): what r1, r2, r3 and the overflow register hold. -/
def launchRegister : Word := 0x0000#16

/-- DESIGN CHOICE (log entry 4): what each of the four flags holds. -/
def launchFlag : Bool := false

/-- The parameters of the run the host starts from reset: LOCAL_WORDS as R151 has it (DESIGN CHOICE,
log entry 7); the COPY of a non-zero width by the semantics R94 writes down, so that it runs (DESIGN
CHOICE, log entry 10); FLAGS_ON_SKIP, SIGNED_G and CLASS_BIT as 00_scope.md section 4 has
them. -/
def launchConfig : Config where
  localWords := 65536
  copyWidthMode := .ascending
  flagsOnSkip := false
  signedG := true
  classBit := .bit15

end Sys2Proof.Machine
end

