-- ==== Sys2Proof/Machine/Memory.lean ====
section
/-! DEFINITION. Local memory: a canonical list of byte cells, and the reads and writes of one word
(20_memory.md R26, R32, R33). The word at address `a` is the two cells `2a` (bits 7:0) and `2a + 1`
(bits 15:8); no access is narrower than a word, so no program can tell (R34; log entry 6). -/

namespace Sys2Proof.Machine

/-- Local memory: addresses strictly rising, no entry equal to what an unlisted one reads as. -/
abbrev Memory := List Host.Cell

/-- DESIGN CHOICE (log entry 5). What a byte no entry lists reads as; the launch convention of
70_reset_and_hazards.md R151. -/
def unlistedByte : Byte := 0x00#8

/-- The canonical form. -/
abbrev Memory.wf (m : Memory) : Prop :=
  m.Pairwise (fun p q => p.1 < q.1) ∧ ∀ p ∈ m, p.2 ≠ unlistedByte

/-- The byte held by cell `k`. -/
def readByte : Memory → Nat → Byte
  | [], _ => unlistedByte
  | (a, b) :: rest, k => if a = k then b else readByte rest k

/-- A cell in front of the list, left out where it says what an unlisted cell says. -/
def consCell (k : Nat) (b : Byte) (rest : Memory) : Memory :=
  if b = unlistedByte then rest else (k, b) :: rest

/-- The memory with `b` in cell `k`, again in canonical form. -/
def writeByte : Memory → Nat → Byte → Memory
  | [], k, b => consCell k b []
  | (a, c) :: rest, k, b =>
    if k < a then consCell k b ((a, c) :: rest)
    else if k = a then consCell k b rest
    else (a, c) :: writeByte rest k b

/-- The word at a word address. -/
def readWord (m : Memory) (a : Word) : Word :=
  readByte m (2 * a.toNat + 1) ++ readByte m (2 * a.toNat)

/-- The memory with the word `v` at word address `a`. -/
def writeWord (m : Memory) (a v : Word) : Memory :=
  writeByte (writeByte m (2 * a.toNat) (v.extractLsb' 0 8)) (2 * a.toNat + 1) (v.extractLsb' 8 8)

end Sys2Proof.Machine
end

