-- ==== Sys2Proof/Machine/State.lean ====
section
/-! DEFINITION. The state of one uCISC processor (10_state.md), the reasons a step can stop, and the
state after reset. -/

namespace Sys2Proof.Machine

/-- The four result flags (10_state.md R15). No instruction reads `c` or `v` (R16). -/
structure Flags where
  /-- Zero, Z. -/
  z : Bool
  /-- Negative, N. -/
  n : Bool
  /-- Carry, C. -/
  c : Bool
  /-- Overflow, V. -/
  v : Bool
deriving DecidableEq, Repr

/-- All the state the spec gives the machine, the record of banked accesses and the parameters. -/
structure State where
  /-- The program counter: while an instruction executes, its address (10_state.md R12). -/
  pc : Word
  /-- General register r1 (R10). -/
  x1 : Word
  /-- General register r2 (R10). -/
  x2 : Word
  /-- General register r3 (R10). -/
  x3 : Word
  /-- The control register `000000HG WWWWWWFT` (R18). -/
  cr : Word
  /-- The overflow register (R17). -/
  ovf : Word
  /-- The result flags (R15). -/
  flags : Flags
  /-- Local memory (R26). -/
  mem : Memory
  /-- The accesses made to banked memory, oldest first (20_memory.md R46; log entry 8). -/
  banked : List BankedEvent
  /-- The parameters; no step changes them (00_scope.md section 4; log entry 7). -/
  cfg : Config
deriving DecidableEq, Repr

/-- Why a step stops. Each is the stuck state of 20_memory.md R41, met only where LOCAL_WORDS is
below 65536. Safe: the source says nothing of the case and the model claims nothing of it. -/
inductive Fault where
  /-- Raised by the fetch of an instruction at an unimplemented local address (R41). Safe. -/
  | unimplementedFetch (addr : Word)
  /-- Raised by a source or destination operand read of an unimplemented local address (R41). Safe. -/
  | unimplementedRead (addr : Word)
  /-- Raised by the write of a result to an unimplemented local address (R41). Safe. -/
  | unimplementedWrite (addr : Word)
deriving DecidableEq, Repr

/-- Why the model gives a step no meaning. -/
inductive Refusal where
  /-- Raised by an arm of `exec` whose instruction has no meaning yet; no arm does. Safe. -/
  | notModelled (mnemonic : String)
  /-- Raised by a COPY of non-zero width where COPY_WIDTH_MODE is `refuse` (41_copy.md R94). Safe. -/
  | copyWidth
  /-- Raised by a COPY of non-zero width with an increment where COPY_WIDTH_MODE is `ascending`, the
  one form R94 refuses there. Safe. -/
  | copyWidthIncrement
  /-- Raised by the decoding of a fetched word with bit 15 set where CLASS_BIT is `notAdopted`: the
  source says nothing of such a word (30_encoding.md R62). Safe. -/
  | unknownClass (word : Word)
deriving DecidableEq, Repr

/-- The machine at the start of a run (10_state.md R28; log entries 2 to 5, 7, 8 and 10). -/
def State.reset : State where
  pc := launchPc
  x1 := launchRegister
  x2 := launchRegister
  x3 := launchRegister
  cr := launchCr
  ovf := launchRegister
  flags := { z := launchFlag, n := launchFlag, c := launchFlag, v := launchFlag }
  mem := []
  banked := []
  cfg := launchConfig

end Sys2Proof.Machine
end

