-- ==== Sys2Proof/Machine/Flags.lean ====
section
/-! DEFINITION. What an ALU operation computes, and the flags (42_alu.md R101 to R103). `dv` is the
destination operand, `sv` the source value. -/

namespace Sys2Proof.Machine

/-- What an operation gives: the 16-bit result, the new overflow register, carry and overflow. -/
structure AluOut where
  result : Word
  ovf : Word
  c : Bool
  v : Bool
deriving DecidableEq, Repr

/-- An operation under "overflow register is set to 0, carry and overflow flags are 0" (R102). -/
def plainOut (result : Word) : AluOut := { result := result, ovf := 0#16, c := false, v := false }

/-- Zero and negative from the 16-bit result, in both modes (R101). -/
def AluOut.flags (o : AluOut) : Flags :=
  { z := o.result == 0#16, n := o.result.msb, c := o.c, v := o.v }

/-- A word as an integer of the mode: two's complement in signed mode, unsigned otherwise. -/
def modeInt (signed : Bool) (w : Word) : Int := if signed then w.toInt else (w.toNat : Int)

/-- The integer lies outside -32768 .. 32767. -/
def outsideSigned (x : Int) : Bool := decide (x < -32768) || decide (32767 < x)

/-- The integer is not representable in 16 bits in the mode. -/
def outsideMode (signed : Bool) (x : Int) : Bool :=
  if signed then outsideSigned x else decide (x < 0) || decide (65535 < x)

/-- Carry of an addition (R102). -/
def addCarry (dv sv : Word) : Bool := decide (65535 < dv.toNat + sv.toNat)

/-- Overflow of an addition (R102). -/
def addOverflow (dv sv : Word) : Bool := outsideSigned (dv.toInt + sv.toInt)

/-- Carry of a subtraction, a borrow (R102). -/
def subBorrow (dv sv : Word) : Bool := decide (dv.toNat < sv.toNat)

/-- Overflow of a subtraction (R102). -/
def subOverflow (dv sv : Word) : Bool := outsideSigned (dv.toInt - sv.toInt)

/-- Carry and overflow of a multiplication (R102). -/
def mulOverflow (signed : Bool) (dv sv : Word) : Bool :=
  outsideMode signed (modeInt signed dv * modeInt signed sv)

/-- Overflow of a division: only the signed quotient -32768 / -1 (R102). -/
def divOverflow (signed : Bool) (dv sv : Word) : Bool := signed && dv == 0x8000#16 && sv == 0xFFFF#16

/-- The exact integer as a 32-bit two's complement pattern, the result its low half, the overflow
register its high half (R114 to R116, decision D37). -/
def wideOut (exact : Int) (c v : Bool) : AluOut :=
  let r32 := BitVec.ofInt 32 exact
  { result := r32.extractLsb' 0 16, ovf := r32.extractLsb' 16 16, c := c, v := v }

end Sys2Proof.Machine
end

