-- ==== Sys2Proof/Machine/Ops.lean ====
section
/-! DEFINITION. The named operations over registers and memory that every instruction shares
(10_state.md, 20_memory.md, 40_common_operands.md R72 to R81). The machine raises no exception and
has no trap return (60_exceptions.md R130, R133, R134), so there is no operation for either. -/

namespace Sys2Proof.Machine

/-- The register a number names (10_state.md R10). -/
def State.reg (s : State) : Reg → Word
  | .r1 => s.x1
  | .r2 => s.x2
  | .r3 => s.x3

/-- Write a general register. -/
def State.setReg (s : State) (r : Reg) (v : Word) : State :=
  match r with
  | .r1 => { s with x1 := v }
  | .r2 => { s with x2 := v }
  | .r3 => { s with x3 := v }

/-- Write the program counter. -/
def State.setPc (s : State) (v : Word) : State := { s with pc := v }

/-- `pc <- (pc + 1) mod 2^16` (10_state.md R13, R14). -/
def State.advancePc (s : State) : State := s.setPc (s.pc + 1#16)

/-- The bits of the control register that can be written: bits 15:10 are hardwired zero (R23). -/
def crMask : Word := 0x03FF#16

/-- Write the control register (R23). -/
def State.setCr (s : State) (v : Word) : State := { s with cr := v &&& crMask }

/-- Replace local memory. -/
def State.setMem (s : State) (m : Memory) : State := { s with mem := m }

/-- Record an access to banked memory (20_memory.md R46). -/
def State.record (s : State) (e : BankedEvent) : State := { s with banked := s.banked ++ [e] }

/-- Write the flags and the overflow register, as an ALU instruction does (R16, R17). -/
def State.setAlu (s : State) (f : Flags) (ovf : Word) : State := { s with flags := f, ovf := ovf }

/-- `cr.H`: the processor is halted exactly when bit 9 is set (R19). -/
def State.halted (s : State) : Bool := s.cr.getLsbD 9

/-- Signed mode: `cr.G`, bit 8, has the value that means signed (R20). -/
def State.signedMode (s : State) : Bool := s.cr.getLsbD 8 == s.cfg.signedG

/-- `cr.W`, bits 7:2, the copy width (R21). -/
def State.copyWidth (s : State) : BitVec 6 := s.cr.extractLsb' 2 6

/-- The two address spaces (20_memory.md R30). -/
inductive Space where
  | localMem | banked
deriving DecidableEq, Repr

/-- The space an address space bit selects (10_state.md R22). -/
def spaceOf (b : Bool) : Space := if b then .banked else .localMem

/-- The space of a source read: `cr.F`, bit 1 (R22; 20_memory.md R31). -/
def State.fromSpace (s : State) : Space := spaceOf (s.cr.getLsbD 1)

/-- The space of a destination operand read and of a result write: `cr.T`, bit 0 (R22; 20_memory.md
R31). -/
def State.toSpace (s : State) : Space := spaceOf (s.cr.getLsbD 0)

/-- Whether a local address is implemented (20_memory.md R41). -/
def State.implemented (s : State) (a : Word) : Bool := decide (a.toNat < s.cfg.localWords)

/-- The word at a local address. -/
def State.word (s : State) (a : Word) : Word := readWord s.mem a

/-- Fetch: the word at `pc` in local memory, whatever `cr.F` and `cr.T` hold (20_memory.md R36). -/
def fetchWord (s : State) : Except Fault Word :=
  if s.implemented s.pc then .ok (s.word s.pc) else .error (.unimplementedFetch s.pc)

/-- `MemRead(space, a, 1)`: a local read has no effect (20_memory.md R39); a banked read returns what
the platform draws and is recorded (R46). -/
def readData (sp : Space) (a : Word) (s : State) : Except Fault (Word × State) :=
  match sp with
  | .localMem => if s.implemented a then .ok (s.word a, s) else .error (.unimplementedRead a)
  | .banked =>
    let v := Config.bankedRead s.banked a
    .ok (v, s.record (.read a v))

/-- `MemWrite(space, a, 1, v)`: a banked write is recorded and changes nothing else (R46). -/
def writeData (sp : Space) (a v : Word) (s : State) : Except Fault State :=
  match sp with
  | .localMem =>
    if s.implemented a then .ok (s.setMem (writeWord s.mem a v)) else .error (.unimplementedWrite a)
  | .banked => .ok (s.record (.write a v))

/-- The effect test on the flags as they stand before the instruction (40_common_operands.md R73). -/
def effectHolds (e : Effect) (f : Flags) : Bool :=
  match e with
  | .ifZero => f.z
  | .ifNotZero => !f.z
  | .ifNegative => f.n
  | .always => true

/-- The increment (R78): a push decrements the destination register; where the destination is no
`mem` argument a pop increments the source register; no other register moves. -/
def moveIncrement (a : Args) (s : State) : State :=
  if a.inc then
    match a.dst, a.src with
    | .mem r, _ => s.setReg r (s.reg r - 1#16)
    | _, .mem r => s.setReg r (s.reg r + 1#16)
    | _, _ => s
  else s

/-- The store of the result (R79), at `k` words above the address of a `mem` destination (0 for all
but the later words of a COPY of non-zero width, 41_copy.md R94). -/
def storeAt (k : Word) (d : Dst) (v : Word) (s : State) : Except Fault State :=
  match d with
  | .pc => .ok (s.setPc v)
  | .mem r => writeData s.toSpace (s.reg r + k) v s
  | .cr => .ok (s.setCr v)
  | .reg r => .ok (s.setReg r v)

/-- The store of the result to the destination (R79). -/
def storeResult (d : Dst) (v : Word) (s : State) : Except Fault State := storeAt 0#16 d v s

/-- `pc <- (pc + 1) mod 2^16` unless the destination was `0.reg` (R80). -/
def nextPc (d : Dst) (s : State) : State :=
  match d with
  | .pc => s
  | .mem _ => s.advancePc
  | .cr => s.advancePc
  | .reg _ => s.advancePc

/-- The outcome of a step that can only stop by a fault. -/
def toOutcome : Except Fault State → Host.Outcome State Fault Refusal
  | .ok s => .next s
  | .error f => .fault f

end Sys2Proof.Machine
end

