-- ==== Sys2Proof/Machine/Operands.lean ====
section
/-! DEFINITION. The source value and the destination operand (40_common_operands.md R75, R76). -/

namespace Sys2Proof.Machine

/-- The source value (R75), `k` words above the address of a `mem` source (0 for all but the later
words of a COPY of non-zero width, 41_copy.md R94). -/
def sourceAt (k : Word) (a : Args) (s : State) : Except Fault (Word × State) :=
  match a.src with
  | .pc => .ok (s.pc + a.imm, s)
  | .mem r => readData s.fromSpace (s.reg r + a.imm + k) s
  | .val => .ok (a.imm, s)
  | .reg r => .ok (s.reg r + a.imm, s)

/-- The source value `SV` (R75). -/
def sourceValue (a : Args) (s : State) : Except Fault (Word × State) := sourceAt 0#16 a s

/-- The destination operand `DV`: never modified by the immediate, read before any decrement, from
the space the result is written to (R76). -/
def destOperand (d : Dst) (s : State) : Except Fault (Word × State) :=
  match d with
  | .pc => .ok (s.pc, s)
  | .mem r => readData s.toSpace (s.reg r) s
  | .cr => .ok (s.cr, s)
  | .reg r => .ok (s.reg r, s)

end Sys2Proof.Machine
end

