-- ==== Sys2Proof/Machine/Frame.lean ====
section
/-! DEFINITION. The frame every ALU instruction runs in (40_common_operands.md R70; 42_alu.md R100). -/

namespace Sys2Proof.Machine

/-- Read the operand of a one-operand operation and compute it; the destination is not read (R76). -/
def unary (f : Word → AluOut) (a : Args) (s : State) : Except Fault (AluOut × State) :=
  match sourceValue a s with
  | .error e => .error e
  | .ok (sv, s1) => .ok (f sv, s1)

/-- Read the operands of a two-operand operation, source first (20_memory.md R38), and compute it with
the destination operand as the first argument (42_alu.md R100). -/
def binary (f : Word → Word → AluOut) (a : Args) (s : State) : Except Fault (AluOut × State) :=
  match sourceValue a s with
  | .error e => .error e
  | .ok (sv, s1) =>
    match destOperand a.dst s1 with
    | .error e => .error e
    | .ok (dv, s2) => .ok (f dv sv, s2)

/-- The increment, the store, the flags with the overflow register, and the program counter, in this
order (R78 to R81). -/
def finishAlu (a : Args) (o : AluOut) (s : State) : Except Fault State :=
  match storeResult a.dst o.result (moveIncrement a s) with
  | .error e => .error e
  | .ok s1 => .ok (nextPc a.dst (s1.setAlu o.flags o.ovf))

/-- An ALU instruction whose operands are read and computed by `operate`. Where the effect fails it
advances `pc` and does nothing else (R74); FLAGS_ON_SKIP makes it write the flags and the overflow
register as well, for which it has to read its operands (log entry 14). -/
def execAlu (operate : Args → State → Except Fault (AluOut × State)) (a : Args) (s : State) :
    Host.Outcome State Fault Refusal :=
  if effectHolds a.eff s.flags then
    match operate a s with
    | .error e => .fault e
    | .ok (o, s1) => toOutcome (finishAlu a o s1)
  else if s.cfg.flagsOnSkip then
    match operate a s with
    | .error e => .fault e
    | .ok (o, s1) => .next (s1.setAlu o.flags o.ovf).advancePc
  else .next s.advancePc

end Sys2Proof.Machine
end

