-- ==== Sys2Proof/Machine/ArithOps.lean ====
section
/-! DEFINITION. The arithmetic operations, which respect signed mode (42_alu.md R114 to R117). -/

namespace Sys2Proof.Machine

/-- `compute A.op`, add (R114). -/
def addOut (signed : Bool) (dv sv : Word) : AluOut :=
  wideOut (modeInt signed dv + modeInt signed sv) (addCarry dv sv) (addOverflow dv sv)

/-- `compute B.op`, subtract the source value from the destination operand (R115). -/
def subOut (signed : Bool) (dv sv : Word) : AluOut :=
  wideOut (modeInt signed dv - modeInt signed sv) (subBorrow dv sv) (subOverflow dv sv)

/-- `compute C.op`, multiply (R116). -/
def mulOut (signed : Bool) (dv sv : Word) : AluOut :=
  wideOut (modeInt signed dv * modeInt signed sv) (mulOverflow signed dv sv)
    (mulOverflow signed dv sv)

/-- `compute D.op`, divide (R117): the quotient rounded toward zero, and the remainder, with the sign
of the dividend, in the overflow register (decision D20). Of a division by zero the spec states no
result: both are free values (DIV_BY_ZERO; log entry 9), carry and overflow as R102 says. -/
def divOut (signed : Bool) (dv sv : Word) : AluOut :=
  if sv = 0#16 then
    { result := Config.divByZeroResult signed dv, ovf := Config.divByZeroOvf signed dv,
      c := false, v := false }
  else
    { result := BitVec.ofInt 16 ((modeInt signed dv).tdiv (modeInt signed sv)),
      ovf := BitVec.ofInt 16 ((modeInt signed dv).tmod (modeInt signed sv)),
      c := false, v := divOverflow signed dv sv }

/-- The meaning of `compute A.op` (R114). -/
def execAdd (a : Args) (s : State) : Host.Outcome State Fault Refusal :=
  execAlu (binary (addOut s.signedMode)) a s

/-- The meaning of `compute B.op` (R115). -/
def execSub (a : Args) (s : State) : Host.Outcome State Fault Refusal :=
  execAlu (binary (subOut s.signedMode)) a s

/-- The meaning of `compute C.op` (R116). -/
def execMul (a : Args) (s : State) : Host.Outcome State Fault Refusal :=
  execAlu (binary (mulOut s.signedMode)) a s

/-- The meaning of `compute D.op` (R117). -/
def execDiv (a : Args) (s : State) : Host.Outcome State Fault Refusal :=
  execAlu (binary (divOut s.signedMode)) a s

end Sys2Proof.Machine
end

