-- ==== Sys2Proof/Machine/BitOps.lean ====
section
/-! DEFINITION. The bit operations and the shifts (42_alu.md R104 to R110). -/

namespace Sys2Proof.Machine

/-- `compute 0.op`, INV (R104). -/
def invOut (sv : Word) : AluOut := plainOut (~~~sv)

/-- `compute 1.op`, AND (R105). -/
def andOut (dv sv : Word) : AluOut := plainOut (dv &&& sv)

/-- `compute 2.op`, OR (R106). -/
def orOut (dv sv : Word) : AluOut := plainOut (dv ||| sv)

/-- `compute 3.op`, XOR (R107). -/
def xorOut (dv sv : Word) : AluOut := plainOut (dv ^^^ sv)

/-- `compute 4.op`, negate (R108). -/
def negOut (sv : Word) : AluOut := plainOut (0#16 - sv)

/-- `compute 5.op`, shift left (R109). The amount is the whole source value (decision D18); from 32
places on every bit has left both the result and the overflow register, so the exact product is taken
at 32 places there, which R109's cases for `n >= 32` equal. -/
def shlOut (dv sv : Word) : AluOut :=
  let wide := dv.toNat * 2 ^ min sv.toNat 32
  let out := wide / 65536 != 0
  { result := BitVec.ofNat 16 wide, ovf := BitVec.ofNat 16 (wide / 65536), c := out, v := out }

/-- `compute 6.op`, shift right (R110). The result is the floor of the quotient by `2^n`, which no
longer changes from 16 places on; the bits that leave stand right-aligned in the overflow register
(decision D19). -/
def shrOut (signed : Bool) (dv sv : Word) : AluOut :=
  let k := min sv.toNat 16
  let ovf := BitVec.ofNat 16 (dv.toNat % 2 ^ k)
  let out := ovf != 0#16
  { result := BitVec.ofInt 16 (modeInt signed dv / (2 ^ k : Nat)), ovf := ovf, c := out, v := out }

/-- The meaning of `compute 0.op` (R104). -/
def execInv (a : Args) (s : State) : Host.Outcome State Fault Refusal := execAlu (unary invOut) a s

/-- The meaning of `compute 1.op` (R105). -/
def execAnd (a : Args) (s : State) : Host.Outcome State Fault Refusal := execAlu (binary andOut) a s

/-- The meaning of `compute 2.op` (R106). -/
def execOr (a : Args) (s : State) : Host.Outcome State Fault Refusal := execAlu (binary orOut) a s

/-- The meaning of `compute 3.op` (R107). -/
def execXor (a : Args) (s : State) : Host.Outcome State Fault Refusal := execAlu (binary xorOut) a s

/-- The meaning of `compute 4.op` (R108). -/
def execNeg (a : Args) (s : State) : Host.Outcome State Fault Refusal := execAlu (unary negOut) a s

/-- The meaning of `compute 5.op` (R109). -/
def execShl (a : Args) (s : State) : Host.Outcome State Fault Refusal := execAlu (binary shlOut) a s

/-- The meaning of `compute 6.op` (R110). -/
def execShr (a : Args) (s : State) : Host.Outcome State Fault Refusal :=
  execAlu (binary (shrOut s.signedMode)) a s

end Sys2Proof.Machine
end

