-- ==== Sys2Proof/Machine/ByteOps.lean ====
section
/-! DEFINITION. The byte operations (42_alu.md R111 to R113). -/

namespace Sys2Proof.Machine

/-- `compute 7.op`, swap the MSB and LSB bytes (R111). -/
def swapOut (sv : Word) : AluOut := plainOut (sv.extractLsb' 0 8 ++ sv.extractLsb' 8 8)

/-- `compute 8.op`, zero LSB (R112). -/
def zeroLsbOut (sv : Word) : AluOut := plainOut (sv &&& 0xFF00#16)

/-- `compute 9.op`, zero MSB (R113). -/
def zeroMsbOut (sv : Word) : AluOut := plainOut (sv &&& 0x00FF#16)

/-- The meaning of `compute 7.op` (R111). -/
def execSwap (a : Args) (s : State) : Host.Outcome State Fault Refusal := execAlu (unary swapOut) a s

/-- The meaning of `compute 8.op` (R112). -/
def execZeroLsb (a : Args) (s : State) : Host.Outcome State Fault Refusal :=
  execAlu (unary zeroLsbOut) a s

/-- The meaning of `compute 9.op` (R113). -/
def execZeroMsb (a : Args) (s : State) : Host.Outcome State Fault Refusal :=
  execAlu (unary zeroMsbOut) a s

end Sys2Proof.Machine
end

