-- ==== Sys2Proof/Machine/Copy.lean ====
section
/-! DEFINITION. HALT and COPY (41_copy.md). -/

namespace Sys2Proof.Machine

/-- Set `cr.H`, bit 9 (10_state.md R19). -/
def State.setHalt (s : State) : State := s.setCr (s.cr ||| 0x0200#16)

/-- `halt` (R91, R92): where the effect holds, `cr.H <- 1` and `pc` stays at the instruction, whatever
the copy width holds; otherwise only `pc` advances. -/
def execHalt (e : Effect) (s : State) : Host.Outcome State Fault Refusal :=
  if effectHolds e s.flags then .next s.setHalt else .next s.advancePc

/-- A COPY of one word (R90): source value, increment, store, program counter. -/
def copyOne (a : Args) (s : State) : Except Fault State :=
  match sourceValue a s with
  | .error e => .error e
  | .ok (sv, s1) =>
    match storeResult a.dst sv (moveIncrement a s1) with
    | .error e => .error e
    | .ok s2 => .ok (nextPc a.dst s2)

/-- Word `k` of a COPY of non-zero width (R94): read `k` words above the source address, write `k`
words above the destination address. A destination that is no `mem` argument receives the last word
only. -/
def copyWord (a : Args) (k : Word) (last : Bool) (s : State) : Except Fault State :=
  match sourceAt k a s with
  | .error e => .error e
  | .ok (v, s1) => if a.dst.isMem || last then storeAt k a.dst v s1 else .ok s1

/-- The words `k` to `k + n` of a COPY of non-zero width, one after the other (R94; log entry 11). -/
def copyWords (a : Args) : Nat → Word → State → Except Fault State
  | 0, k, s => copyWord a k true s
  | n + 1, k, s =>
    match copyWord a k false s with
    | .error e => .error e
    | .ok s1 => copyWords a n (k + 1#16) s1

/-- A COPY of `cr.W + 1` words, then the program counter (R93, R94). -/
def copyWide (a : Args) (s : State) : Except Fault State :=
  match copyWords a s.copyWidth.toNat 0#16 s with
  | .error e => .error e
  | .ok s1 => .ok (nextPc a.dst s1)

/-- `copy` (R90); with a non-zero copy width as COPY_WIDTH_MODE says (R94; log entries 10 to 12). -/
def execCopy (a : Args) (s : State) : Host.Outcome State Fault Refusal :=
  if effectHolds a.eff s.flags then
    if s.copyWidth = 0#6 then toOutcome (copyOne a s)
    else
      match s.cfg.copyWidthMode with
      | .refuse => .refused .copyWidth
      | .ascending => if a.inc then .refused .copyWidthIncrement else toOutcome (copyWide a s)
  else .next s.advancePc

end Sys2Proof.Machine
end

