-- ==== Sys2Proof/Machine/ExtraOps.lean ====
section
/-! DEFINITION. The extra operations (42_alu.md R118, R119). -/

namespace Sys2Proof.Machine

/-- `compute E.op`, the first address of the 64-word page that holds the source value (R118). -/
def pageOut (sv : Word) : AluOut := plainOut (sv &&& 0xFFC0#16)

/-- `compute F.op`, the source value plus the overflow register as it stands before the instruction
(R119). -/
def addOvfOut (ovf sv : Word) : AluOut := plainOut (sv + ovf)

/-- The meaning of `compute E.op` (R118). -/
def execPage (a : Args) (s : State) : Host.Outcome State Fault Refusal := execAlu (unary pageOut) a s

/-- The meaning of `compute F.op` (R119). -/
def execAddOvf (a : Args) (s : State) : Host.Outcome State Fault Refusal :=
  execAlu (unary (addOvfOut s.ovf)) a s

end Sys2Proof.Machine
end

