-- ==== Sys2Proof/Machine/Dispatch.lean ====
section
/-! DEFINITION. The meaning of each instruction, one arm per constructor of `Instr`. -/

namespace Sys2Proof.Machine

/-- One instruction, after its fetch and decoding (40_common_operands.md R70). -/
def exec (i : Instr) (s : State) : Host.Outcome State Fault Refusal :=
  match i with
  | .halt e => Sys2Proof.Machine.execHalt e s
  | .copy a => Sys2Proof.Machine.execCopy a s
  | .inv a => Sys2Proof.Machine.execInv a s
  | .and a => Sys2Proof.Machine.execAnd a s
  | .or a => Sys2Proof.Machine.execOr a s
  | .xor a => Sys2Proof.Machine.execXor a s
  | .neg a => Sys2Proof.Machine.execNeg a s
  | .shl a => Sys2Proof.Machine.execShl a s
  | .shr a => Sys2Proof.Machine.execShr a s
  | .swap a => Sys2Proof.Machine.execSwap a s
  | .zeroLsb a => Sys2Proof.Machine.execZeroLsb a s
  | .zeroMsb a => Sys2Proof.Machine.execZeroMsb a s
  | .add a => Sys2Proof.Machine.execAdd a s
  | .sub a => Sys2Proof.Machine.execSub a s
  | .mul a => Sys2Proof.Machine.execMul a s
  | .div a => Sys2Proof.Machine.execDiv a s
  | .page a => Sys2Proof.Machine.execPage a s
  | .addOvf a => Sys2Proof.Machine.execAddOvf a s

end Sys2Proof.Machine
end

