-- ==== Sys2Proof/Machine/Step.lean ====
section
/-! DEFINITION. One step of the processor (40_common_operands.md R70). -/

namespace Sys2Proof.Machine

/-- One step: a halted processor executes nothing and keeps all its state (R71; log entry 13); a
running one fetches the word at `pc`, decodes it and executes it (R72); a word whose class CLASS_BIT does
not tell is refused (30_encoding.md R62; log entry 20). -/
def step (s : State) : Host.Outcome State Fault Refusal :=
  if s.halted then .next s
  else
    match fetchWord s with
    | .error e => .fault e
    | .ok w =>
      match decodeWord s.cfg.classBit w with
      | some i => exec i s
      | none => .refused (.unknownClass w)

/-- The state with the instruction word whose bits are `w` where the next step fetches, and running:
it stands for the outside agent that loads a program and starts the processor (70_reset_and_hazards.md
R150, R152; log entry 16). -/
def State.withFetchWord (s : State) (nbits w : Nat) : State :=
  { s with mem := writeWord s.mem s.pc (tableWord nbits w), cr := s.cr &&& ~~~0x0200#16 }

end Sys2Proof.Machine
end

