-- ==== Sys2Proof/Machine/Assembly.lean ====
section
/-! DEFINITION. The assembly statements of 30_encoding.md R64 to R69, as far as the source's examples
show them, read into instructions. It takes no part in a step (log entry 19). -/

namespace Sys2Proof.Machine

/-- The characters of a line, a token or a name. -/
abbrev Chars := List Char

/-- The text before and, where the separator occurs, after its first occurrence. -/
def splitAtChar (sep : Char) : Chars → Chars × Option Chars
  | [] => ([], none)
  | c :: cs =>
    if c = sep then ([], some cs)
    else
      let r := splitAtChar sep cs
      (c :: r.1, r.2)

/-- The arguments of a line, "separated by spaces" (R64). `acc` is the token read so far, reversed. -/
def tokensFrom (acc : Chars) : Chars → List Chars
  | [] => if acc.isEmpty then [] else [acc.reverse]
  | c :: cs =>
    if c = ' ' then (if acc.isEmpty then tokensFrom [] cs else acc.reverse :: tokensFrom [] cs)
    else tokensFrom (c :: acc) cs

/-- The tokens of a line; "`#` starts a comment that runs to the end of the line" (R64). -/
def tokens (line : Chars) : List Chars := tokensFrom [] (splitAtChar '#' line).1

/-- The value of a decimal digit. -/
def digit? (c : Char) : Option Nat :=
  if '0'.toNat ≤ c.toNat ∧ c.toNat ≤ '9'.toNat then some (c.toNat - '0'.toNat) else none

/-- The value of digits that follow a number already read. -/
def decimalFrom : Nat → Chars → Option Nat
  | n, [] => some n
  | n, c :: cs =>
    match digit? c with
    | some d => decimalFrom (10 * n + d) cs
    | none => none

/-- A decimal number (log entry 19: the source states no number base). -/
def decimal? : Chars → Option Nat
  | [] => none
  | c :: cs => decimalFrom 0 (c :: cs)

/-- A decimal number, negative after a minus sign (log entry 19). -/
def integer? : Chars → Option Int
  | '-' :: cs => (decimal? cs).map (fun n => -(n : Int))
  | cs => (decimal? cs).map (fun n => (n : Int))

/-- One hexadecimal digit, a capital letter from ten on (R60, R64). -/
def hexDigit? : Chars → Option (BitVec 4)
  | [c] =>
    if 'A'.toNat ≤ c.toNat ∧ c.toNat ≤ 'F'.toNat then some (BitVec.ofNat 4 (c.toNat - 'A'.toNat + 10))
    else (digit? c).map (BitVec.ofNat 4)
  | _ => none

/-- The register of a number (30_encoding.md R57, R58). -/
def regOfNumber : Nat → Option Reg
  | 1 => some .r1
  | 2 => some .r2
  | 3 => some .r3
  | _ => none

/-- The names `$name as <argument>` lines have given, latest first (R66). -/
abbrev Names := List (Chars × Chars)

/-- The argument a name stands for. -/
def lookupName : Names → Chars → Option Chars
  | [], _ => none
  | (k, v) :: rest, n => if k = n then some v else lookupName rest n

/-- An argument's number and type, `<number>.<type>` (R65), a `$name` looked up first (R66). -/
def typed? (names : Names) (base : Chars) : Option (Chars × Chars) :=
  let text := if base.head? = some '$' then lookupName names base else some base
  match text.map (splitAtChar '.') with
  | some (number, some type) => some (number, type)
  | _ => none

/-- A source argument and its immediate (R65, R67): an offset stands after a colon, a bare `N.imm` is
source `4.val` with immediate N, an argument without offset has immediate 0. -/
def source? (names : Names) (token : Chars) : Option (Src × Int) :=
  let parts := splitAtChar ':' token
  let offset : Option Int :=
    match parts.2 with
    | none => some 0
    | some t => integer? t
  match typed? names parts.1, offset with
  | some (number, type), some imm =>
    if type = ['i', 'm', 'm'] then
      (if parts.2.isNone then (integer? number).map (fun n => (Src.val, n)) else none)
    else if type = ['v', 'a', 'l'] then (if number = ['4'] then some (.val, imm) else none)
    else if type = ['m', 'e', 'm'] then
      ((decimal? number).bind regOfNumber).map (fun r => (Src.mem r, imm))
    else if type = ['r', 'e', 'g'] then
      (if number = ['0'] then some (.pc, imm)
       else ((decimal? number).bind regOfNumber).map (fun r => (Src.reg r, imm)))
    else none
  | _, _ => none

/-- A destination argument (R65); "destination arguments are never modified by immediate values", so
it takes no offset. -/
def destination? (names : Names) (token : Chars) : Option Dst :=
  match typed? names token with
  | some (number, type) =>
    if type = ['m', 'e', 'm'] then ((decimal? number).bind regOfNumber).map Dst.mem
    else if type = ['r', 'e', 'g'] then
      (if number = ['0'] then some .pc
       else if number = ['4'] then some .cr
       else ((decimal? number).bind regOfNumber).map Dst.reg)
    else none
  | none => none

/-- A trailing effect, `N.eff`, the spec's own spelling; an absent one is `3.eff` (R68). -/
def effect? : List Chars → Option Effect
  | [] => some .always
  | [['0', '.', 'e', 'f', 'f']] => some .ifZero
  | [['1', '.', 'e', 'f', 'f']] => some .ifNotZero
  | [['2', '.', 'e', 'f', 'f']] => some .ifNegative
  | [['3', '.', 'e', 'f', 'f']] => some .always
  | _ => none

/-- `[push|pop] <source> <destination>` and the effect (R64). `push` and `pop` both set the increment
(R67). The immediate has to fit its range and an increment has to be legal (R53, R56). -/
def arguments? (names : Names) (c : Class) (ts : List Chars) : Option Args :=
  let inc := ts.head? = some ['p', 'u', 's', 'h'] ∨ ts.head? = some ['p', 'o', 'p']
  match if inc then ts.tail else ts with
  | src :: dst :: rest =>
    match source? names src, destination? names dst, effect? rest with
    | some (s, n), some d, some e =>
      let a : Args := { eff := e, dst := d, src := s, inc := inc, imm := BitVec.ofInt 16 n }
      if a.imm.toInt = n ∧ immFits c a ∧ incAllowed a then some a else none
    | _, _, _ => none
  | _ => none

/-- A statement (R64): `copy`, `compute`, and the spec's shorthand `halt`; `copy 0.reg 0.reg` with
offset 0 is HALT (R69). -/
def statement? (names : Names) : List Chars → Option Instr
  | ['h', 'a', 'l', 't'] :: ts => (effect? ts).map Instr.halt
  | ['c', 'o', 'p', 'y'] :: ts =>
    (arguments? names .copy ts).map (fun a => if notHaltForm a then .copy a else .halt a.eff)
  | ['c', 'o', 'm', 'p', 'u', 't', 'e'] :: op :: ts =>
    match splitAtChar '.' op with
    | (x, some ['o', 'p']) =>
      match hexDigit? x, arguments? names .alu ts with
      | some k, some a => some (aluOf k a)
      | _, _ => none
    | _ => none
  | _ => none

/-- The instructions of the lines: a line is empty or a comment, gives an argument a name (R66), or is
a statement. -/
def assembleFrom (names : Names) : List Chars → Option (List Instr)
  | [] => some []
  | line :: rest =>
    match tokens line with
    | [] => assembleFrom names rest
    | [name, ['a', 's'], argument] =>
      if name.head? = some '$' then assembleFrom ((name, argument) :: names) rest else none
    | ts =>
      match statement? names ts, assembleFrom names rest with
      | some i, some is => some (i :: is)
      | _, _ => none

/-- The words of the lines of an assembly text. -/
def assemble (lines : List String) : Option (List Word) :=
  (assembleFrom [] (lines.map String.toList)).map (List.map encodeWord)

end Sys2Proof.Machine
end

