-- ==== Sys2Proof/Safety.lean ====
section
/-! DEFINITION. The terms claims use: the invariant, what an instruction's arguments denote in a state,
written out as closed formulas from 40_common_operands.md R75 to R82 and not through the operations of
the machine, and what a completed instruction leaves. -/

namespace Sys2Proof.Safety

open Sys2Proof.Machine

/-- The end of a run: the processor is halted (70_reset_and_hazards.md R159). -/
def Final (s : State) : Prop := s.halted = true

/-- The invariant: local memory is canonical and lies inside the implemented addresses (20_memory.md
R41), bits 15:10 of the control register are zero (10_state.md R23), and LOCAL_WORDS is 1 to 65536. -/
abbrev Invariant (s : State) : Prop :=
  Memory.wf s.mem ∧ (∀ p ∈ s.mem, p.1 < 2 * s.cfg.localWords) ∧ s.cr &&& 0xFC00#16 = 0#16 ∧
    0 < s.cfg.localWords ∧ s.cfg.localWords ≤ 65536

/-- The arguments of an instruction; HALT has none but its effect. -/
def args? : Instr → Option Args
  | .halt _ => none
  | .copy a => some a
  | .inv a => some a
  | .and a => some a
  | .or a => some a
  | .xor a => some a
  | .neg a => some a
  | .shl a => some a
  | .shr a => some a
  | .swap a => some a
  | .zeroLsb a => some a
  | .zeroMsb a => some a
  | .add a => some a
  | .sub a => some a
  | .mul a => some a
  | .div a => some a
  | .page a => some a
  | .addOvf a => some a

/-- The effect of an instruction. -/
def effect (i : Instr) : Effect :=
  match i, args? i with
  | .halt e, _ => e
  | _, some a => a.eff
  | _, none => .always

/-- Whether an instruction is a HALT. -/
def isHalt (i : Instr) : Bool := (args? i).isNone

/-- Whether an instruction is a COPY. -/
def isCopy : Instr → Bool
  | .copy _ => true
  | _ => false

/-- Whether an instruction is an ALU instruction. -/
def isAlu (i : Instr) : Bool := (args? i).isSome && !isCopy i

/-- The sixteen ALU operations (30_encoding.md R60). -/
inductive AluOp where
  | inv | and | or | xor | neg | shl | shr | swap | zeroLsb | zeroMsb | add | sub | mul | div | page
  | addOvf
deriving DecidableEq, Repr

/-- The instruction of an operation. -/
def aluInstr (op : AluOp) (a : Args) : Instr :=
  match op with
  | .inv => .inv a
  | .and => .and a
  | .or => .or a
  | .xor => .xor a
  | .neg => .neg a
  | .shl => .shl a
  | .shr => .shr a
  | .swap => .swap a
  | .zeroLsb => .zeroLsb a
  | .zeroMsb => .zeroMsb a
  | .add => .add a
  | .sub => .sub a
  | .mul => .mul a
  | .div => .div a
  | .page => .page a
  | .addOvf => .addOvf a

/-- The two-operand operations, which read the destination operand (42_alu.md R100). -/
def twoOperand : AluOp → Bool
  | .and => true
  | .or => true
  | .xor => true
  | .shl => true
  | .shr => true
  | .add => true
  | .sub => true
  | .mul => true
  | .div => true
  | .inv => false
  | .neg => false
  | .swap => false
  | .zeroLsb => false
  | .zeroMsb => false
  | .page => false
  | .addOvf => false

/-- What an operation computes from the mode, the overflow register, the destination operand and the
source value (42_alu.md R104 to R119). -/
def aluOut (op : AluOp) (signed : Bool) (ovf dv sv : Word) : AluOut :=
  match op with
  | .inv => invOut sv
  | .and => andOut dv sv
  | .or => orOut dv sv
  | .xor => xorOut dv sv
  | .neg => negOut sv
  | .shl => shlOut dv sv
  | .shr => shrOut signed dv sv
  | .swap => swapOut sv
  | .zeroLsb => zeroLsbOut sv
  | .zeroMsb => zeroMsbOut sv
  | .add => addOut signed dv sv
  | .sub => subOut signed dv sv
  | .mul => mulOut signed dv sv
  | .div => divOut signed dv sv
  | .page => pageOut sv
  | .addOvf => addOvfOut ovf sv

/-- What a read of the space gives, after the banked accesses of the record `log`. -/
def valueAt (s : State) (log : List BankedEvent) (sp : Space) (a : Word) : Word :=
  match sp with
  | .localMem => s.word a
  | .banked => Config.bankedRead log a

/-- What a read of the space adds to the record of banked accesses. -/
def readEvents (s : State) (log : List BankedEvent) (sp : Space) (a : Word) : List BankedEvent :=
  match sp with
  | .localMem => []
  | .banked => [.read a (valueAt s log sp a)]

/-- The state with more accesses in the record of banked accesses, nothing else changed. -/
def logged (s : State) (evs : List BankedEvent) : State := { s with banked := s.banked ++ evs }

/-- The source value `SV` (R75). -/
def srcVal (a : Args) (s : State) : Word :=
  match a.src with
  | .pc => s.pc + a.imm
  | .mem r => valueAt s s.banked s.fromSpace (s.reg r + a.imm)
  | .val => a.imm
  | .reg r => s.reg r + a.imm

/-- What the source read adds to the record of banked accesses. -/
def srcEvents (a : Args) (s : State) : List BankedEvent :=
  match a.src with
  | .mem r => readEvents s s.banked s.fromSpace (s.reg r + a.imm)
  | _ => []

/-- The destination operand `DV` (R76), read after the source value (20_memory.md R38). -/
def dstVal (a : Args) (s : State) : Word :=
  match a.dst with
  | .pc => s.pc
  | .mem r => valueAt s (s.banked ++ srcEvents a s) s.toSpace (s.reg r)
  | .cr => s.cr
  | .reg r => s.reg r

/-- What the destination operand read adds to the record of banked accesses. -/
def dstEvents (a : Args) (s : State) : List BankedEvent :=
  match a.dst with
  | .mem r => readEvents s (s.banked ++ srcEvents a s) s.toSpace (s.reg r)
  | _ => []

/-- The address a result is stored to through register `r`: after the decrement of a push (R78, R79). -/
def storeAddr (a : Args) (s : State) (r : Reg) : Word := if a.inc then s.reg r - 1#16 else s.reg r

/-- What the store of `res` adds to the record of banked accesses (R79; 20_memory.md R46). -/
def storeEvents (a : Args) (res : Word) (s : State) : List BankedEvent :=
  match a.dst with
  | .mem r => if s.toSpace = .banked then [.write (storeAddr a s r) res] else []
  | _ => []

/-- What register `q` holds after the increment and the store of `res` (R78, R79, R82). -/
def regAfter (a : Args) (res : Word) (s : State) (q : Reg) : Word :=
  if a.dst = .reg q then res
  else if a.inc = true ∧ a.dst = .mem q then s.reg q - 1#16
  else if a.inc = true ∧ a.dst.isMem = false ∧ a.src = .mem q then s.reg q + 1#16
  else s.reg q

/-- What local address `w` holds after the store of `res` (R79). -/
def wordAfter (a : Args) (res : Word) (s : State) (w : Word) : Word :=
  match a.dst with
  | .mem r => if s.toSpace = .localMem ∧ w = storeAddr a s r then res else s.word w
  | _ => s.word w

/-- The source read, if the instruction makes one in local memory, has an implemented address. -/
def SourceReadable (a : Args) (s : State) : Prop :=
  ∀ r, a.src = .mem r → s.fromSpace = .localMem → s.implemented (s.reg r + a.imm) = true

/-- The destination operand read has an implemented address. -/
def DestReadable (a : Args) (s : State) : Prop :=
  ∀ r, a.dst = .mem r → s.toSpace = .localMem → s.implemented (s.reg r) = true

/-- The store has an implemented address. -/
def Storable (a : Args) (s : State) : Prop :=
  ∀ r, a.dst = .mem r → s.toSpace = .localMem → s.implemented (storeAddr a s r) = true

/-- The effect holds, local memory is canonical, and the accesses of a COPY of one word or of a
one-operand ALU instruction are implemented. -/
def ReadyOne (a : Args) (s : State) : Prop :=
  effectHolds a.eff s.flags = true ∧ Memory.wf s.mem ∧ SourceReadable a s ∧ Storable a s

/-- The same with the destination operand read of a two-operand ALU instruction. -/
def ReadyTwo (a : Args) (s : State) : Prop := ReadyOne a s ∧ DestReadable a s

/-- What an instruction with the arguments leaves when it has read with the banked accesses `reads`
and stored `res`: every register, the control register, the program counter, every word of local
memory, the record of banked accesses and the parameters (R78 to R80). -/
structure Stored (a : Args) (res : Word) (reads : List BankedEvent) (s t : State) : Prop where
  pc : t.pc = if a.dst = .pc then res else s.pc + 1#16
  cr : t.cr = if a.dst = .cr then res &&& 0x03FF#16 else s.cr
  reg : ∀ q, t.reg q = regAfter a res s q
  word : ∀ w, t.word w = wordAfter a res s w
  banked : t.banked = s.banked ++ reads ++ storeEvents a res s
  cfg : t.cfg = s.cfg
  canonical : Memory.wf t.mem

/-- What an ALU instruction leaves: the store, the overflow register, and the four flags, zero and
negative from the 16-bit result (R81; 42_alu.md R101). -/
def AluDone (a : Args) (reads : List BankedEvent) (res ovf : Word) (c v : Bool) (s t : State) : Prop :=
  Stored a res reads s t ∧ t.ovf = ovf ∧ t.flags = { z := decide (res = 0#16), n := res.msb, c := c, v := v }

/-- What a COPY of non-zero width leaves alone whatever its arguments, where its destination is a `mem`
argument: registers, control register, flags, overflow register, parameters; `pc` advances by one and
local memory is canonical again. -/
structure WideFrame (s t : State) : Prop where
  pc : t.pc = s.pc + 1#16
  cr : t.cr = s.cr
  reg : ∀ q, t.reg q = s.reg q
  flags : t.flags = s.flags
  ovf : t.ovf = s.ovf
  cfg : t.cfg = s.cfg
  canonical : Memory.wf t.mem

/-- A COPY of non-zero width runs: its effect holds, the width is not zero, COPY_WIDTH_MODE is
`ascending`, it has no increment, and local memory is canonical (41_copy.md R94; log entry 10). -/
def WideReady (a : Args) (s : State) : Prop :=
  effectHolds a.eff s.flags = true ∧ s.copyWidth ≠ 0#6 ∧ s.cfg.copyWidthMode = .ascending ∧
    a.inc = false ∧ Memory.wf s.mem

/-- The source address of word `k` of a COPY of non-zero width is implemented, if it lies in local memory. -/
def WideWordReadable (a : Args) (s : State) (k : Nat) : Prop :=
  ∀ q, a.src = .mem q → s.fromSpace = .localMem →
    s.implemented (s.reg q + a.imm + BitVec.ofNat 16 k) = true

/-- The destination address of word `k` of a COPY of non-zero width is implemented, if it lies in local
memory. -/
def WideWordStorable (a : Args) (s : State) (k : Nat) : Prop :=
  ∀ r, a.dst = .mem r → s.toSpace = .localMem →
    s.implemented (s.reg r + BitVec.ofNat 16 k) = true

/-- Every source address of a COPY of non-zero width that lies in local memory is implemented. -/
def WideReadable (a : Args) (s : State) : Prop :=
  ∀ k : Nat, k ≤ s.copyWidth.toNat → WideWordReadable a s k

/-- Local memory after the first `n` words of a COPY from the local addresses `src` on to the local
addresses `dst` on, each word read from what the words before it left (41_copy.md R94; log entry 11). -/
def wideLocal (s : State) (src dst : Word) : Nat → Word → Word
  | 0, w => s.word w
  | k + 1, w =>
    if w = dst + BitVec.ofNat 16 k then wideLocal s src dst k (src + BitVec.ofNat 16 k)
    else wideLocal s src dst k w

/-- What word `k` of a COPY of non-zero width reads after the banked accesses `log`, local memory as it is
before the instruction (41_copy.md R94). -/
def wideValue (a : Args) (s : State) (log : List BankedEvent) (k : Nat) : Word :=
  match a.src with
  | .mem q => valueAt s log s.fromSpace (s.reg q + a.imm + BitVec.ofNat 16 k)
  | _ => srcVal a s

/-- What the read of word `k` adds to the record of banked accesses `log`. -/
def wideReads (a : Args) (s : State) (log : List BankedEvent) (k : Nat) : List BankedEvent :=
  match a.src with
  | .mem q => readEvents s log s.fromSpace (s.reg q + a.imm + BitVec.ofNat 16 k)
  | _ => []

/-- What the write of word `k`, read after `log`, adds to the record of banked accesses. -/
def wideWrites (a : Args) (s : State) (log : List BankedEvent) (k : Nat) : List BankedEvent :=
  match a.dst with
  | .mem r =>
    if s.toSpace = .banked then [.write (s.reg r + BitVec.ofNat 16 k) (wideValue a s log k)] else []
  | _ => []

/-- What the first `n` words of a COPY of non-zero width add to the record of banked accesses: of each word
the read, then the write (41_copy.md R94; log entry 11). -/
def wideEvents (a : Args) (s : State) : Nat → List BankedEvent
  | 0 => []
  | k + 1 =>
    wideEvents a s k ++ wideReads a s (s.banked ++ wideEvents a s k) k ++
      wideWrites a s (s.banked ++ wideEvents a s k) k

/-- Word `k` of a COPY of non-zero width. -/
def wideWord (a : Args) (s : State) (k : Nat) : Word := wideValue a s (s.banked ++ wideEvents a s k) k

/-- The instructions that respect signed mode (42_alu.md R120). -/
def respectsMode : Instr → Bool
  | .shr _ => true
  | .add _ => true
  | .sub _ => true
  | .mul _ => true
  | .div _ => true
  | _ => false

/-- The state with bit 8 of the control register, `cr.G`, flipped. -/
def flipG (s : State) : State := { s with cr := s.cr ^^^ 0x0100#16 }

/-- The state with the other value of `cr.G` meaning signed. -/
def flipSignedG (s : State) : State := { s with cfg := { s.cfg with signedG := !s.cfg.signedG } }

/-- An outcome with its next state, if it is one, changed by `f`. -/
def mapNext (f : State → State) : Host.Outcome State Fault Refusal → Host.Outcome State Fault Refusal
  | .next s => .next (f s)
  | .fault e => .fault e
  | .refused r => .refused r

end Sys2Proof.Safety
end

