-- ==== Sys2Proof/Certificates/Slice0/Obligations.lean ====
section
/-! DEFINITION. The statements for the provers. "Decision D<n>" is the spec's own decision of
92_eei_decisions.md (log entry 1); "log entry <n>" is notes/assumptions/<n>.md. -/

open Sys2Proof Sys2Proof.Machine Sys2Proof.Safety

/-! ### Encoding -/

/-- Decoding the words of a well-formed instruction gives it back, whatever words follow; for an ALU
instruction where CLASS_BIT adopts decision D1, and where it does not the word is refused by name
(30_encoding.md R50 to R62; decisions D1, D2). -/
def Obligations.DecodeOfEncodeIsTheInstruction : Prop :=
  ∀ (r : ClassBit) (i : Instr) (rest : List Word), i.wf = true →
    ((isAlu i = true → r = .bit15) → decode r (encode i ++ rest) = .ok (i, rest)) ∧
    (isAlu i = true → r = .notAdopted →
      decode r (encode i ++ rest) = .error (.unknownClass (encodeWord i)))

/-- Every word that decodes is the word of the instruction it decodes to, so every bit of a word is kept
(30_encoding.md R62; decision D1). -/
def Obligations.EncodeOfDecodeIsTheWord : Prop :=
  ∀ (r : ClassBit) (w : Word) (i : Instr), decodeWord r w = some i → encodeWord i = w

/-- Every word decodes where CLASS_BIT adopts decision D1, and exactly the words with bit 15 clear where
it does not; what a word decodes to is well formed: its immediate lies in the range of R56's table, and
it has an increment only where an argument is `mem` (30_encoding.md R51, R53, R56, R62; decisions D1,
D34). -/
def Obligations.EveryWordDecodesToWellFormed : Prop :=
  (∀ w : Word, ∃ i, decodeWord .bit15 w = some i) ∧
  (∀ w : Word, (∃ i, decodeWord .notAdopted w = some i) ↔ w.getLsbD 15 = false) ∧
  ∀ (r : ClassBit) (w : Word) (i : Instr), decodeWord r w = some i → i.wf = true

/-- A word is a HALT exactly when `w & 0x9FFF = 0`; the four HALT words (30_encoding.md R61; decision
D2). -/
def Obligations.HaltWordsAreTheFour : Prop :=
  ∀ r : ClassBit,
    (∀ w : Word, (∃ i, decodeWord r w = some i ∧ isHalt i = true) ↔ w &&& 0x9FFF#16 = 0#16) ∧
    decodeWord r 0x0000#16 = some (.halt .ifZero) ∧
    decodeWord r 0x2000#16 = some (.halt .ifNotZero) ∧
    decodeWord r 0x4000#16 = some (.halt .ifNegative) ∧
    decodeWord r 0x6000#16 = some (.halt .always)

/-- The eight source codes of R57's table, at w[9:7]. -/
def Obligations.SourceFieldFollowsItsTable : Prop :=
  ∀ (r : ClassBit) (w : Word) (i : Instr) (a : Args), decodeWord r w = some i → args? i = some a →
    ∀ p ∈ [(0b000#3, Src.pc), (0b001#3, Src.mem .r1), (0b010#3, Src.mem .r2), (0b011#3, Src.mem .r3),
        (0b100#3, Src.val), (0b101#3, Src.reg .r1), (0b110#3, Src.reg .r2), (0b111#3, Src.reg .r3)],
      w.extractLsb' 7 3 = p.1 → a.src = p.2

/-- The eight destination codes of R58's table, at w[12:10]. -/
def Obligations.DestinationFieldFollowsItsTable : Prop :=
  ∀ (r : ClassBit) (w : Word) (i : Instr) (a : Args), decodeWord r w = some i → args? i = some a →
    ∀ p ∈ [(0b000#3, Dst.pc), (0b001#3, Dst.mem .r1), (0b010#3, Dst.mem .r2), (0b011#3, Dst.mem .r3),
        (0b100#3, Dst.cr), (0b101#3, Dst.reg .r1), (0b110#3, Dst.reg .r2), (0b111#3, Dst.reg .r3)],
      w.extractLsb' 10 3 = p.1 → a.dst = p.2

/-- The effect codes, at w[14:13], of HALT as of every other instruction (30_encoding.md R52, R59,
which derives the code from the number; decision D2). -/
def Obligations.EffectFieldFollowsItsTable : Prop :=
  ∀ (r : ClassBit) (w : Word) (i : Instr), decodeWord r w = some i →
    ∀ p ∈ [(0b00#2, Effect.ifZero), (0b01#2, Effect.ifNotZero), (0b10#2, Effect.ifNegative),
        (0b11#2, Effect.always)],
      w.extractLsb' 13 2 = p.1 → effect i = p.2

/-- The two COPY formats of R54: with a `mem` argument bit 6 is the increment and w[5:0] the immediate
field, without one there is no increment and w[6:0] is the field. -/
def Obligations.CopyFormatsSplitTheLowBits : Prop :=
  ∀ (r : ClassBit) (w : Word) (a : Args), decodeWord r w = some (.copy a) →
    (hasM a.dst a.src = true →
      a.inc = w.getLsbD 6 ∧ a.imm.extractLsb' 0 6 = w.extractLsb' 0 6) ∧
    (hasM a.dst a.src = false →
      a.inc = false ∧ a.imm.extractLsb' 0 7 = w.extractLsb' 0 7)

/-- The sixteen operations of R60's list, at w[3:0]. -/
def Obligations.OpcodeFieldNamesTheOperation : Prop :=
  ∀ (r : ClassBit) (w : Word) (op : AluOp) (a : Args), decodeWord r w = some (aluInstr op a) →
    ∀ p ∈ [(0x0#4, AluOp.inv), (0x1#4, AluOp.and), (0x2#4, AluOp.or), (0x3#4, AluOp.xor),
        (0x4#4, AluOp.neg), (0x5#4, AluOp.shl), (0x6#4, AluOp.shr), (0x7#4, AluOp.swap),
        (0x8#4, AluOp.zeroLsb), (0x9#4, AluOp.zeroMsb), (0xA#4, AluOp.add), (0xB#4, AluOp.sub),
        (0xC#4, AluOp.mul), (0xD#4, AluOp.div), (0xE#4, AluOp.page), (0xF#4, AluOp.addOvf)],
      w.extractLsb' 0 4 = p.1 → op = p.2

/-- The ALU words are those with bit 15 set, and the two ALU formats split bits 6:4
(30_encoding.md R51, R55; decision D1). -/
def Obligations.AluFormatsSplitTheLowBits : Prop :=
  (∀ (r : ClassBit) (w : Word) (i : Instr), decodeWord r w = some i →
    (w.getLsbD 15 = true ↔ isAlu i = true)) ∧
  ∀ (r : ClassBit) (w : Word) (op : AluOp) (a : Args), decodeWord r w = some (aluInstr op a) →
    (hasM a.dst a.src = true →
      a.inc = w.getLsbD 6 ∧ a.imm.extractLsb' 0 2 = w.extractLsb' 4 2) ∧
    (hasM a.dst a.src = false →
      a.inc = false ∧ a.imm.extractLsb' 0 3 = w.extractLsb' 4 3)

/-- The immediate as a number: the field read as unsigned where the source is a `mem` argument, as two's
complement otherwise (30_encoding.md R56; decision D34). -/
def Obligations.ImmediateIsUnsignedForMemSource : Prop :=
  ∀ (r : ClassBit) (w : Word) (i : Instr) (a : Args), decodeWord r w = some i → args? i = some a →
    (a.src.isMem = true → w.getLsbD 15 = false → a.imm.toInt = (w.extractLsb' 0 6).toNat) ∧
    (a.src.isMem = true → w.getLsbD 15 = true → a.imm.toInt = (w.extractLsb' 4 2).toNat) ∧
    (a.src.isMem = false → a.dst.isMem = true → w.getLsbD 15 = false →
      a.imm.toInt = (w.extractLsb' 0 6).toInt) ∧
    (a.src.isMem = false → a.dst.isMem = true → w.getLsbD 15 = true →
      a.imm.toInt = (w.extractLsb' 4 2).toInt) ∧
    (a.src.isMem = false → a.dst.isMem = false → w.getLsbD 15 = false →
      a.imm.toInt = (w.extractLsb' 0 7).toInt) ∧
    (a.src.isMem = false → a.dst.isMem = false → w.getLsbD 15 = true →
      a.imm.toInt = (w.extractLsb' 4 3).toInt)

/-- Words written out from the encoding decode to the instructions they stand for: one of each family
(95_test_vectors.md section 2; the swap of section 5.4). -/
def Obligations.WrittenWordsDecode : Prop :=
  decodeWord .bit15 0b0110000000000000#16 = some (.halt .always) ∧
  decodeWord .bit15 0b0111100010000010#16 = some (.copy ⟨.always, .reg .r2, .mem .r1, false, 2⟩) ∧
  decodeWord .bit15 0b1111011001000000#16 = some (.inv ⟨.always, .reg .r1, .val, false, 0xFFFC⟩) ∧
  decodeWord .bit15 0b1111101100000111#16 = some (.swap ⟨.always, .reg .r2, .reg .r2, false, 0⟩) ∧
  decodeWord .bit15 0b1110010011011010#16 = some (.add ⟨.always, .mem .r1, .mem .r1, true, 1⟩) ∧
  decodeWord .bit15 0b1110000011001110#16 = some (.page ⟨.always, .pc, .mem .r1, true, 0⟩)

/-- The assembler's statements read into well-formed instructions only (30_encoding.md R53, R56, R64 to
R69; log entry 19). -/
def Obligations.AssembledInstructionsAreWellFormed : Prop :=
  ∀ (names : Names) (lines : List Chars) (is : List Instr), assembleFrom names lines = some is →
    ∀ i ∈ is, i.wf = true

/-- The seven statements of the source's examples assemble to the words the spec derives for them
(95_test_vectors.md T1 to T7; decisions D1, D2, D27). -/
def Obligations.SourceExamplesAssemble : Prop :=
  assemble ["$stack as 1.mem", "$pc as 0.reg", "", "# Example ALU instructions",
      "compute A.op push $stack:1 $stack", "compute E.op pop $stack $pc",
      "compute A.op 1.imm $stack", "copy push $stack $stack", "copy pop $stack $pc",
      "copy $stack:2 2.reg", "compute B.op 2.mem $stack"] =
    some [0xE4DA#16, 0xE0CE#16, 0xE61A#16, 0x64C0#16, 0x60C0#16, 0x7882#16, 0xE50B#16]

/-! ### Memory -/

/-- A local write is read back at its address and changes no other word; a banked write is recorded;
neither changes anything else of the state (20_memory.md R39, R46; decision D24). -/
def Obligations.WriteChangesOneWord : Prop :=
  ∀ (s t : State) (a v : Word), Memory.wf s.mem →
    (writeData .localMem a v s = .ok t →
      (∀ w, t.word w = if w = a then v else s.word w) ∧ Memory.wf t.mem ∧
        t = { s with mem := t.mem }) ∧
    (writeData .banked a v s = .ok t → t = { s with banked := s.banked ++ [.write a v] })

/-- A fetch, read or write of a local address is stuck exactly when the address is LOCAL_WORDS or above
(20_memory.md R41; decision D23). -/
def Obligations.UnimplementedLocalAccessIsStuck : Prop :=
  ∀ (s : State) (a v : Word),
    (fetchWord s = .error (.unimplementedFetch s.pc) ↔ s.cfg.localWords ≤ s.pc.toNat) ∧
    (readData .localMem a s = .error (.unimplementedRead a) ↔ s.cfg.localWords ≤ a.toNat) ∧
    (writeData .localMem a v s = .error (.unimplementedWrite a) ↔ s.cfg.localWords ≤ a.toNat)

/-- An unimplemented access of an instruction is a fault of the instruction, the first in the order source
read, destination operand read, write: for a COPY of width 0, for every ALU instruction (the destination
operand read only where the operation has two operands; the reads also under FLAGS_ON_SKIP, log entry 14),
and for a COPY of non-zero width that of the first word with one, its read before its write (20_memory.md
R41; 60_exceptions.md R142; decision D23; 41_copy.md R94's candidate semantics, log entries 10, 11). -/
def Obligations.UnimplementedAccessFaultsTheInstruction : Prop :=
  (∀ (a : Args) (s : State), effectHolds a.eff s.flags = true → s.copyWidth = 0#6 →
    (∀ q, a.src = .mem q → s.fromSpace = .localMem → s.implemented (s.reg q + a.imm) = false →
      exec (.copy a) s = .fault (.unimplementedRead (s.reg q + a.imm))) ∧
    (∀ r, SourceReadable a s → a.dst = .mem r → s.toSpace = .localMem →
      s.implemented (storeAddr a s r) = false →
      exec (.copy a) s = .fault (.unimplementedWrite (storeAddr a s r)))) ∧
  (∀ (op : AluOp) (a : Args) (s : State), effectHolds a.eff s.flags = true ∨ s.cfg.flagsOnSkip = true →
    (∀ q, a.src = .mem q → s.fromSpace = .localMem → s.implemented (s.reg q + a.imm) = false →
      exec (aluInstr op a) s = .fault (.unimplementedRead (s.reg q + a.imm))) ∧
    (∀ r, SourceReadable a s → twoOperand op = true → a.dst = .mem r → s.toSpace = .localMem →
      s.implemented (s.reg r) = false →
      exec (aluInstr op a) s = .fault (.unimplementedRead (s.reg r)))) ∧
  (∀ (op : AluOp) (a : Args) (s : State) (r : Reg), effectHolds a.eff s.flags = true →
    SourceReadable a s → (twoOperand op = true → DestReadable a s) → a.dst = .mem r →
    s.toSpace = .localMem → s.implemented (storeAddr a s r) = false →
    exec (aluInstr op a) s = .fault (.unimplementedWrite (storeAddr a s r))) ∧
  ∀ (a : Args) (s : State) (k : Nat), effectHolds a.eff s.flags = true → s.copyWidth ≠ 0#6 →
    s.cfg.copyWidthMode = .ascending → a.inc = false → k ≤ s.copyWidth.toNat →
    (∀ j < k, WideWordReadable a s j ∧ WideWordStorable a s j) →
    (∀ q, a.src = .mem q → s.fromSpace = .localMem →
      s.implemented (s.reg q + a.imm + BitVec.ofNat 16 k) = false →
      exec (.copy a) s = .fault (.unimplementedRead (s.reg q + a.imm + BitVec.ofNat 16 k))) ∧
    (∀ r, WideWordReadable a s k → a.dst = .mem r → s.toSpace = .localMem →
      s.implemented (s.reg r + BitVec.ofNat 16 k) = false →
      exec (.copy a) s = .fault (.unimplementedWrite (s.reg r + BitVec.ofNat 16 k)))

/-- A read of banked memory is never stuck: it returns what the platform draws, is recorded, and changes
nothing else (20_memory.md R46; decision D24; log entry 8). -/
def Obligations.BankedReadReturnsTheDraw : Prop :=
  ∀ (s : State) (a : Word),
    readData .banked a s = .ok (Config.bankedRead s.banked a,
      { s with banked := s.banked ++ [.read a (Config.bankedRead s.banked a)] })

/-! ### The step -/

/-- A running processor, one with bit 9 of `cr` clear, whose `pc` is implemented runs the instruction its
word decodes to under CLASS_BIT, fetched from local memory whatever `cr.F` and `cr.T` hold; a word that
decodes to none is refused (40_common_operands.md R70, R72; 30_encoding.md R62; decisions D1, D7; log entry
20). -/
def Obligations.StepRunsTheDecodedInstruction : Prop :=
  ∀ (s : State) (rest : List Word), s.cr.getLsbD 9 = false → s.implemented s.pc = true →
    (∀ i, decode s.cfg.classBit (s.word s.pc :: rest) = .ok (i, rest) → step s = exec i s) ∧
    ∀ e, decode s.cfg.classBit (s.word s.pc :: rest) = .error e →
      step s = .refused (.unknownClass (s.word s.pc))

/-- A running processor at an unimplemented `pc` is stuck (20_memory.md R41; decision D23). -/
def Obligations.StepIsStuckAtUnimplementedPc : Prop :=
  ∀ s : State, s.halted = false → s.implemented s.pc = false →
    step s = .fault (.unimplementedFetch s.pc)

/-- No number of steps changes any state of a halted processor, one with bit 9 of `cr` set (10_state.md R19;
40_common_operands.md R71; 60_exceptions.md R136). That a step of a halted processor answers its own state
is the model's choice (log entry 13). -/
def Obligations.HaltedProcessorKeepsItsState : Prop :=
  ∀ (s : State) (k : Nat), s.cr.getLsbD 9 = true → Sys2Proof.core.run k s = .next s

/-- The state at the start of a run: H = 0 and bits 15:10 of `cr` zero as the spec says (10_state.md
R28); the rest are the model's choices: `pc` and the other bits of `cr` (log entry 2), r1 to r3 (log
entry 3), flags and overflow register (log entry 4), memory (log entry 5), parameters (log entries 7, 10,
14, 15, 20). -/
def Obligations.ResetLeavesTheLaunchState : Prop :=
  State.reset.halted = false ∧ State.reset.cr &&& 0xFC00#16 = 0#16 ∧ State.reset.cr = 0#16 ∧
    State.reset.pc = 0#16 ∧ (∀ r, State.reset.reg r = 0#16) ∧ State.reset.ovf = 0#16 ∧
    State.reset.flags = ⟨false, false, false, false⟩ ∧ (∀ w, State.reset.word w = 0#16) ∧
    State.reset.banked = [] ∧ State.reset.cfg = ⟨65536, .ascending, false, true, .bit15⟩

/-! ### The effect -/

/-- The four effect tests, from the flags before the instruction: they hold when Z = 1, when Z = 0, when N =
1, and always. A HALT, a COPY or an ALU instruction whose effect fails advances `pc` and leaves every other
piece of state as it was (40_common_operands.md R73, R74; decision D10, FLAGS_ON_SKIP = false for the
ALU). -/
def Obligations.FailedEffectOnlyAdvancesPc : Prop :=
  (∀ f : Flags, (effectHolds .ifZero f = true ↔ f.z = true) ∧
    (effectHolds .ifNotZero f = true ↔ f.z = false) ∧
    (effectHolds .ifNegative f = true ↔ f.n = true) ∧ effectHolds .always f = true) ∧
  ∀ (i : Instr) (s : State),
    (effect i = .ifZero ∧ s.flags.z = false ∨ effect i = .ifNotZero ∧ s.flags.z = true ∨
      effect i = .ifNegative ∧ s.flags.n = false) →
    (isAlu i = true → s.cfg.flagsOnSkip = false) →
    exec i s = .next { s with pc := s.pc + 1#16 }

/-- With FLAGS_ON_SKIP an ALU instruction whose effect fails writes the flags and the overflow register
of its operation, advances `pc`, and stores and increments nothing (40_common_operands.md R74; that its
operands are read is the model's, log entry 14). -/
def Obligations.FlagsOnSkipWritesOnlyFlags : Prop :=
  ∀ (op : AluOp) (a : Args) (s : State), effectHolds a.eff s.flags = false →
    s.cfg.flagsOnSkip = true → SourceReadable a s → (twoOperand op = true → DestReadable a s) →
    exec (aluInstr op a) s = .next { s with
      pc := s.pc + 1#16
      flags := (aluOut op s.signedMode s.ovf (dstVal a s) (srcVal a s)).flags
      ovf := (aluOut op s.signedMode s.ovf (dstVal a s) (srcVal a s)).ovf
      banked := s.banked ++ srcEvents a s ++ if twoOperand op then dstEvents a s else [] }

/-! ### HALT and COPY -/

/-- A HALT whose effect holds sets `cr.H`, leaves `pc` at itself and changes nothing else, whatever the
copy width; one whose effect fails only advances `pc` (41_copy.md R91, R92; decisions D15, D16). -/
def Obligations.HaltSetsTheHaltBit : Prop :=
  ∀ (e : Effect) (s : State), s.cr &&& 0xFC00#16 = 0#16 →
    (effectHolds e s.flags = true →
      exec (.halt e) s = .next { s with cr := s.cr ||| 0x0200#16 } ∧ (s.setHalt).halted = true) ∧
    (effectHolds e s.flags = false → exec (.halt e) s = .next { s with pc := s.pc + 1#16 })

/-- A COPY of width 0 stores the source value unchanged, with the increment, and writes no flag and not
the overflow register (41_copy.md R90; 40_common_operands.md R75, R78 to R82; decisions D5 to D8, D26). -/
def Obligations.CopyStoresTheSourceValue : Prop :=
  ∀ (a : Args) (s : State), ReadyOne a s → s.copyWidth = 0#6 →
    ∃ t, exec (.copy a) s = .next t ∧ Stored a (srcVal a s) (srcEvents a s) s t ∧
      t.flags = s.flags ∧ t.ovf = s.ovf

/-- The copy width is bits 7:2 of `cr`. A COPY of non-zero width whose effect holds is refused where
COPY_WIDTH_MODE is `refuse`; where it is `ascending` one with an increment is and one without never is
(10_state.md R21; 41_copy.md R94; decision D17; log entries 10, 12). -/
def Obligations.CopyWidthRefusals : Prop :=
  (∀ s : State, s.copyWidth = s.cr.extractLsb' 2 6) ∧
  ∀ (a : Args) (s : State), effectHolds a.eff s.flags = true → s.cr.extractLsb' 2 6 ≠ 0#6 →
    (s.cfg.copyWidthMode = .refuse → exec (.copy a) s = .refused .copyWidth) ∧
    (s.cfg.copyWidthMode = .ascending → a.inc = true →
      exec (.copy a) s = .refused .copyWidthIncrement) ∧
    (s.cfg.copyWidthMode = .ascending → a.inc = false → ∀ x, exec (.copy a) s ≠ .refused x)

/-- A COPY of non-zero width from a source that is no `mem` argument to local memory fills W + 1 words
with the source value and leaves everything else but `pc` (41_copy.md R94's candidate semantics, which
the model takes: log entries 10, 11). -/
def Obligations.WideCopyFillsLocalWords : Prop :=
  ∀ (a : Args) (s : State) (r : Reg), WideReady a s → a.dst = .mem r → a.src.isMem = false →
    s.toSpace = .localMem →
    (∀ k : Nat, k ≤ s.copyWidth.toNat → s.implemented (s.reg r + BitVec.ofNat 16 k) = true) →
    ∃ t, exec (.copy a) s = .next t ∧ WideFrame s t ∧ t.banked = s.banked ∧
      (∀ k : Nat, k ≤ s.copyWidth.toNat → t.word (s.reg r + BitVec.ofNat 16 k) = srcVal a s) ∧
      ∀ w, (∀ k : Nat, k ≤ s.copyWidth.toNat → w ≠ s.reg r + BitVec.ofNat 16 k) → t.word w = s.word w

/-- A COPY of non-zero width from local memory to local memory completes and moves W + 1 words one after the
other, a word that was written before it is read with what was written there, and leaves everything else but
`pc`; where no word is read after it is written, each word arrives as it was (41_copy.md R94's candidate
semantics, which the model takes: log entries 10, 11). -/
def Obligations.WideCopyMovesLocalWords : Prop :=
  ∀ (a : Args) (s : State) (r q : Reg), WideReady a s → a.dst = .mem r → a.src = .mem q →
    s.toSpace = .localMem → s.fromSpace = .localMem →
    (∀ k : Nat, k ≤ s.copyWidth.toNat → s.implemented (s.reg r + BitVec.ofNat 16 k) = true ∧
      s.implemented (s.reg q + a.imm + BitVec.ofNat 16 k) = true) →
    ∃ t, exec (.copy a) s = .next t ∧ WideFrame s t ∧ t.banked = s.banked ∧
      (∀ w, t.word w = wideLocal s (s.reg q + a.imm) (s.reg r) (s.copyWidth.toNat + 1) w) ∧
      ((∀ j k : Nat, j < k → k ≤ s.copyWidth.toNat →
          s.reg q + a.imm + BitVec.ofNat 16 k ≠ s.reg r + BitVec.ofNat 16 j) →
        ∀ k : Nat, k ≤ s.copyWidth.toNat →
          t.word (s.reg r + BitVec.ofNat 16 k) = s.word (s.reg q + a.imm + BitVec.ofNat 16 k)) ∧
      ∀ w, (∀ k : Nat, k ≤ s.copyWidth.toNat → w ≠ s.reg r + BitVec.ofNat 16 k) → t.word w = s.word w

/-- A COPY of non-zero width from banked to local memory brings W + 1 words, each the platform's draw after
the reads before it, records the reads, and leaves everything else but `pc` (41_copy.md R94's candidate
semantics, which the model takes: log entries 10, 11; 20_memory.md R46; log entry 8). -/
def Obligations.WideCopyBringsBankedWords : Prop :=
  ∀ (a : Args) (s : State) (r q : Reg), WideReady a s → a.dst = .mem r → a.src = .mem q →
    s.toSpace = .localMem → s.fromSpace = .banked →
    (∀ k : Nat, k ≤ s.copyWidth.toNat → s.implemented (s.reg r + BitVec.ofNat 16 k) = true) →
    ∃ t, exec (.copy a) s = .next t ∧ WideFrame s t ∧
      t.banked = s.banked ++ wideEvents a s (s.copyWidth.toNat + 1) ∧
      (∀ k : Nat, k ≤ s.copyWidth.toNat → t.word (s.reg r + BitVec.ofNat 16 k) =
        Config.bankedRead (s.banked ++ wideEvents a s k) (s.reg q + a.imm + BitVec.ofNat 16 k)) ∧
      ∀ w, (∀ k : Nat, k ≤ s.copyWidth.toNat → w ≠ s.reg r + BitVec.ofNat 16 k) → t.word w = s.word w

/-- A COPY of non-zero width to banked memory, from any source, records W + 1 writes at ascending
addresses, each after its read, and changes no word of local memory; written out for a source in local
memory and for one that is no `mem` argument (41_copy.md R94's candidate semantics, which the model
takes: log entries 10, 11; 20_memory.md R46; log entry 8). -/
def Obligations.WideCopySendsWordsToBanked : Prop :=
  ∀ (a : Args) (s : State) (r : Reg), WideReady a s → a.dst = .mem r → s.toSpace = .banked →
    WideReadable a s →
    ∃ t, exec (.copy a) s = .next t ∧ WideFrame s t ∧ (∀ w, t.word w = s.word w) ∧
      t.banked = s.banked ++ wideEvents a s (s.copyWidth.toNat + 1) ∧
      (∀ q, a.src = .mem q → s.fromSpace = .localMem →
        t.banked = s.banked ++ (List.range (s.copyWidth.toNat + 1)).map (fun k =>
          .write (s.reg r + BitVec.ofNat 16 k) (s.word (s.reg q + a.imm + BitVec.ofNat 16 k)))) ∧
      (a.src.isMem = false →
        t.banked = s.banked ++ (List.range (s.copyWidth.toNat + 1)).map (fun k =>
          .write (s.reg r + BitVec.ofNat 16 k) (srcVal a s)))

/-- A COPY of non-zero width to a register, the control register or `pc`, from any source, stores the last
word there and changes nothing else but `pc` and the record of its banked reads; written out for a source
in local memory and for one that is no `mem` argument (41_copy.md R94's candidate semantics, which the
model takes: log entries 10, 11; log entry 8). -/
def Obligations.WideCopyToRegisterStoresTheLastWord : Prop :=
  ∀ (a : Args) (s : State), WideReady a s → a.dst.isMem = false → WideReadable a s →
    ∃ t, exec (.copy a) s = .next t ∧ t.flags = s.flags ∧ t.ovf = s.ovf ∧
      Stored a (wideWord a s s.copyWidth.toNat) (wideEvents a s (s.copyWidth.toNat + 1)) s t ∧
      (∀ q, a.src = .mem q → s.fromSpace = .localMem →
        Stored a (s.word (s.reg q + a.imm + BitVec.ofNat 16 s.copyWidth.toNat)) [] s t) ∧
      (a.src.isMem = false → Stored a (srcVal a s) [] s t)

/-! ### The sixteen ALU operations

Each says, of every source and destination form, that the instruction completes, what it stores, the
overflow register and the flags, and through `Stored` what it leaves alone. Zero and negative are
decision D11. -/

/-- INV: every bit of the source value flipped (42_alu.md R104). -/
def Obligations.InvFlipsEveryBit : Prop :=
  ∀ (a : Args) (s : State), ReadyOne a s →
    ∃ t, exec (.inv a) s = .next t ∧
      AluDone a (srcEvents a s) (0xFFFF#16 - srcVal a s) 0#16 false false s t

/-- AND of the destination operand and the source value (42_alu.md R105). -/
def Obligations.AndStoresTheConjunction : Prop :=
  ∀ (a : Args) (s : State), ReadyTwo a s →
    ∃ t, exec (.and a) s = .next t ∧
      AluDone a (srcEvents a s ++ dstEvents a s) (dstVal a s &&& srcVal a s) 0#16 false false s t

/-- OR of the destination operand and the source value (42_alu.md R106). -/
def Obligations.OrStoresTheDisjunction : Prop :=
  ∀ (a : Args) (s : State), ReadyTwo a s →
    ∃ t, exec (.or a) s = .next t ∧
      AluDone a (srcEvents a s ++ dstEvents a s) (dstVal a s ||| srcVal a s) 0#16 false false s t

/-- XOR of the destination operand and the source value (42_alu.md R107). -/
def Obligations.XorStoresTheExclusiveOr : Prop :=
  ∀ (a : Args) (s : State), ReadyTwo a s →
    ∃ t, exec (.xor a) s = .next t ∧
      AluDone a (srcEvents a s ++ dstEvents a s) (dstVal a s ^^^ srcVal a s) 0#16 false false s t

/-- Negate: the two's complement of the source value, with carry and overflow 0 (42_alu.md R108). -/
def Obligations.NegStoresTheTwosComplement : Prop :=
  ∀ (a : Args) (s : State), ReadyOne a s →
    ∃ t, exec (.neg a) s = .next t ∧
      AluDone a (srcEvents a s) (~~~srcVal a s + 1#16) 0#16 false false s t

/-- Shift left: with the unbounded product `wide = DV * 2^SV`, the result is its low half, the overflow
register the next 16 bits, and carry and overflow say whether any bit left the result (42_alu.md R109;
decision D18). -/
def Obligations.ShlSplitsTheUnboundedShift : Prop :=
  ∀ (a : Args) (s : State), ReadyTwo a s →
    ∃ t, exec (.shl a) s = .next t ∧
      AluDone a (srcEvents a s ++ dstEvents a s) (dstVal a s <<< srcVal a s)
        (BitVec.ofNat 16 ((dstVal a s).toNat * 2 ^ (srcVal a s).toNat / 65536))
        (decide (65536 ≤ (dstVal a s).toNat * 2 ^ (srcVal a s).toNat))
        (decide (65536 ≤ (dstVal a s).toNat * 2 ^ (srcVal a s).toNat)) s t

/-- Shift right: arithmetic in signed mode, logical otherwise, the low min(SV, 16) bits right-aligned in
the overflow register, carry and overflow set when one of them is not zero (42_alu.md R110; decisions
D13, D18, D19). -/
def Obligations.ShrRespectsSignedMode : Prop :=
  ∀ (a : Args) (s : State), ReadyTwo a s →
    ∃ t, exec (.shr a) s = .next t ∧
      AluDone a (srcEvents a s ++ dstEvents a s)
        (if s.signedMode then (dstVal a s).sshiftRight (srcVal a s).toNat else dstVal a s >>> srcVal a s)
        (BitVec.ofNat 16 ((dstVal a s).toNat % 2 ^ (srcVal a s).toNat))
        (decide ((dstVal a s).toNat % 2 ^ (srcVal a s).toNat ≠ 0))
        (decide ((dstVal a s).toNat % 2 ^ (srcVal a s).toNat ≠ 0)) s t

/-- Swap bytes (42_alu.md R111). -/
def Obligations.SwapExchangesTheBytes : Prop :=
  ∀ (a : Args) (s : State), ReadyOne a s →
    ∃ t, exec (.swap a) s = .next t ∧
      AluDone a (srcEvents a s) (srcVal a s <<< 8 ||| srcVal a s >>> 8) 0#16 false false s t

/-- Zero LSB: the source value with its low byte cleared (42_alu.md R112). -/
def Obligations.ZeroLsbClearsTheLowByte : Prop :=
  ∀ (a : Args) (s : State), ReadyOne a s →
    ∃ t, exec (.zeroLsb a) s = .next t ∧
      AluDone a (srcEvents a s) (BitVec.ofNat 16 ((srcVal a s).toNat / 256 * 256)) 0#16 false false s t

/-- Zero MSB: the low byte of the source value (42_alu.md R113). -/
def Obligations.ZeroMsbKeepsTheLowByte : Prop :=
  ∀ (a : Args) (s : State), ReadyOne a s →
    ∃ t, exec (.zeroMsb a) s = .next t ∧
      AluDone a (srcEvents a s) (BitVec.ofNat 16 ((srcVal a s).toNat % 256)) 0#16 false false s t

/-- Add: the exact sum in the current mode as 32 bits, the result its low half (the same in both modes),
the overflow register its high half, carry and overflow of the 16-bit addition (42_alu.md R102, R114;
decisions D12, D13, D37). -/
def Obligations.AddWritesTheWideSum : Prop :=
  ∀ (a : Args) (s : State) (wide : BitVec 32), ReadyTwo a s →
    wide = (if s.signedMode then (dstVal a s).signExtend 32 + (srcVal a s).signExtend 32
      else (dstVal a s).zeroExtend 32 + (srcVal a s).zeroExtend 32) →
    ∃ t, exec (.add a) s = .next t ∧ wide.extractLsb' 0 16 = dstVal a s + srcVal a s ∧
      AluDone a (srcEvents a s ++ dstEvents a s) (dstVal a s + srcVal a s) (wide.extractLsb' 16 16)
        (BitVec.uaddOverflow (dstVal a s) (srcVal a s))
        (BitVec.saddOverflow (dstVal a s) (srcVal a s)) s t

/-- Subtract the source value from the destination operand: the exact difference in the current mode as
32 bits, carry the borrow (42_alu.md R102, R115; decisions D12, D13, D37). -/
def Obligations.SubWritesTheWideDifference : Prop :=
  ∀ (a : Args) (s : State) (wide : BitVec 32), ReadyTwo a s →
    wide = (if s.signedMode then (dstVal a s).signExtend 32 - (srcVal a s).signExtend 32
      else (dstVal a s).zeroExtend 32 - (srcVal a s).zeroExtend 32) →
    ∃ t, exec (.sub a) s = .next t ∧ wide.extractLsb' 0 16 = dstVal a s - srcVal a s ∧
      AluDone a (srcEvents a s ++ dstEvents a s) (dstVal a s - srcVal a s) (wide.extractLsb' 16 16)
        (BitVec.usubOverflow (dstVal a s) (srcVal a s))
        (BitVec.ssubOverflow (dstVal a s) (srcVal a s)) s t

/-- Multiply: the exact product in the current mode as 32 bits, carry and overflow both set when it does
not fit 16 bits in that mode (42_alu.md R102, R116; decisions D12, D13, D37). -/
def Obligations.MulWritesTheWideProduct : Prop :=
  ∀ (a : Args) (s : State) (wide : BitVec 32), ReadyTwo a s →
    wide = (if s.signedMode then (dstVal a s).signExtend 32 * (srcVal a s).signExtend 32
      else (dstVal a s).zeroExtend 32 * (srcVal a s).zeroExtend 32) →
    ∃ t, exec (.mul a) s = .next t ∧ wide.extractLsb' 0 16 = dstVal a s * srcVal a s ∧
      AluDone a (srcEvents a s ++ dstEvents a s) (dstVal a s * srcVal a s) (wide.extractLsb' 16 16)
        (if s.signedMode then BitVec.smulOverflow (dstVal a s) (srcVal a s)
          else BitVec.umulOverflow (dstVal a s) (srcVal a s))
        (if s.signedMode then BitVec.smulOverflow (dstVal a s) (srcVal a s)
          else BitVec.umulOverflow (dstVal a s) (srcVal a s)) s t

/-- Divide by a divisor that is not zero: the quotient, toward zero in signed mode, the remainder in the
overflow register, carry 0, overflow only for the signed -32768 / -1 (42_alu.md R102, R117; decisions
D12, D13, D20). -/
def Obligations.DivWritesQuotientAndRemainder : Prop :=
  ∀ (a : Args) (s : State), ReadyTwo a s → srcVal a s ≠ 0#16 →
    ∃ t, exec (.div a) s = .next t ∧
      AluDone a (srcEvents a s ++ dstEvents a s)
        (if s.signedMode then (dstVal a s).sdiv (srcVal a s) else dstVal a s / srcVal a s)
        (if s.signedMode then (dstVal a s).srem (srcVal a s) else dstVal a s % srcVal a s) false
        (s.signedMode && decide (dstVal a s = 0x8000#16) && decide (srcVal a s = 0xFFFF#16)) s t

/-- Divide by zero: the spec states no quotient and no remainder; the instruction completes with some,
and zero, negative, carry, overflow, the store, the increment and `pc` are as for every division
(42_alu.md R117's parameter DIV_BY_ZERO; that it runs on is the model's choice, log entry 9). -/
def Obligations.DivByZeroCompletes : Prop :=
  ∀ (a : Args) (s : State), ReadyTwo a s → srcVal a s = 0#16 →
    ∃ (t : State) (quotient remainder : Word), exec (.div a) s = .next t ∧
      AluDone a (srcEvents a s ++ dstEvents a s) quotient remainder false false s t

/-- The division law: in the integers of the mode, `DV = q * SV + r` with `|r| < |SV|` and `r` zero or of
the sign of `DV`, for every divisor but zero, except the signed -32768 / -1 (42_alu.md R117, R121;
decision D20). -/
def Obligations.DivisionLaw : Prop :=
  ∀ (signed : Bool) (dv sv : Word), sv ≠ 0#16 →
    ¬(signed = true ∧ dv = 0x8000#16 ∧ sv = 0xFFFF#16) →
    modeInt signed dv = modeInt signed (divOut signed dv sv).result * modeInt signed sv +
        modeInt signed (divOut signed dv sv).ovf ∧
      |modeInt signed (divOut signed dv sv).ovf| < |modeInt signed sv| ∧
      0 ≤ modeInt signed (divOut signed dv sv).ovf * modeInt signed dv

/-- Page boundary: the address of the first word of the 64-word page of the source value (42_alu.md R118;
decision D21). -/
def Obligations.PageFindsTheFirstWordOfThePage : Prop :=
  ∀ (a : Args) (s : State), ReadyOne a s →
    ∃ t, exec (.page a) s = .next t ∧
      AluDone a (srcEvents a s) (BitVec.ofNat 16 ((srcVal a s).toNat / 64 * 64)) 0#16 false false s t

/-- Add overflow: the source value plus the overflow register as it stood before, which is then 0, with
carry and overflow 0 also when the sum wraps (42_alu.md R119). -/
def Obligations.AddOvfAddsTheOverflowRegister : Prop :=
  ∀ (a : Args) (s : State), ReadyOne a s →
    ∃ t, exec (.addOvf a) s = .next t ∧
      AluDone a (srcEvents a s) (srcVal a s + s.ovf) 0#16 false false s t

/-- Signed mode is bit 8 of the control register, at the value SIGNED_G, and reaches five operations only.
Flipped, the bit changes nothing of what HALT, COPY and the other eleven operations do but the bit itself:
they stop alike, and the states they leave differ in that bit alone (second clause), or not at all where the
instruction overwrites the control register without reading it (third). Where a two-operand operation takes
the control register as an operand, the bit is data; the fourth clause has every form: the other meaning of
the bit (SIGNED_G) gives the same. Add and subtract leave the same but for the overflow register, multiply
but for it, carry and overflow (last two clauses) (10_state.md R20; 42_alu.md R120; decisions D12, D13,
D37). -/
def Obligations.SignedModeReachesFiveOperations : Prop :=
  (∀ s : State, s.signedMode = true ↔ s.cr.getLsbD 8 = s.cfg.signedG) ∧
  (∀ (i : Instr) (s : State), respectsMode i = false →
    (∀ a, args? i = some a → a.dst = .cr →
      effectHolds a.eff s.flags = false ∧ s.cfg.flagsOnSkip = false) →
    exec i (flipG s) = mapNext flipG (exec i s)) ∧
  (∀ (i : Instr) (a : Args) (s : State), respectsMode i = false → args? i = some a → a.dst = .cr →
    (∀ op, i = aluInstr op a → twoOperand op = false) → effectHolds a.eff s.flags = true →
    exec i (flipG s) = exec i s) ∧
  (∀ (i : Instr) (s : State), respectsMode i = false →
    exec i (flipSignedG s) = mapNext flipSignedG (exec i s)) ∧
  (∀ (op : AluOp) (a : Args) (s t u : State), op = .add ∨ op = .sub → a.dst ≠ .cr →
    exec (aluInstr op a) s = .next t → exec (aluInstr op a) (flipG s) = .next u →
    u = flipG { t with ovf := u.ovf }) ∧
  (∀ (a : Args) (s t u : State), a.dst ≠ .cr →
    exec (.mul a) s = .next t → exec (.mul a) (flipG s) = .next u →
    u = flipG { t with ovf := u.ovf, flags := { t.flags with c := u.flags.c, v := u.flags.v } })

/-! ### The whole machine -/

/-- The invariant holds at reset (the model's launch values, log entries 2, 5, 7). -/
def Obligations.ResetMeetsTheInvariant : Prop := Invariant State.reset

/-- Every step keeps the invariant: canonical local memory inside the implemented addresses, bits 15:10
of the control register zero (10_state.md R23, decision D14; 20_memory.md R41, decision D23). -/
def Obligations.EveryStepKeepsTheInvariant : Prop :=
  ∀ s t : State, Invariant s → step s = .next t → Invariant t

/-- Bit 1 of `cr`, F, selects the space of source reads and bit 0, T, that of destination operand reads and
writes. An instruction adds to the record of banked accesses without changing what stands in it, and with F
= T = 0 makes no banked access (10_state.md R22; 20_memory.md R31, R46; decisions D9, D24; that the record
holds the reads too is the model's choice, log entry 8); it never changes a parameter (the model's choice,
log entry 7). -/
def Obligations.BankedRecordOnlyGrows : Prop :=
  (∀ s : State, (s.fromSpace = .banked ↔ s.cr.getLsbD 1 = true) ∧
    (s.toSpace = .banked ↔ s.cr.getLsbD 0 = true)) ∧
  ∀ (i : Instr) (s t : State), exec i s = .next t →
    t.cfg = s.cfg ∧ s.banked <+: t.banked ∧
      (s.cr.getLsbD 1 = false → s.cr.getLsbD 0 = false → t.banked = s.banked)

/-- "Only ALU instructions set the result flags", and the overflow register: a step that changes either
ran an ALU instruction whose effect held (10_state.md R16, R17; decision D10, FLAGS_ON_SKIP = false). -/
def Obligations.OnlyAluInstructionsWriteFlags : Prop :=
  ∀ s t : State, s.cfg.flagsOnSkip = false → step s = .next t → t.flags ≠ s.flags ∨ t.ovf ≠ s.ovf →
    ∃ i, decodeWord s.cfg.classBit (s.word s.pc) = some i ∧ isAlu i = true ∧
      effectHolds (effect i) s.flags = true

/-- An ALU instruction whose effect holds writes the four flags and the overflow register with the values
of its operation, whatever its destination; a COPY writes none of them (R81). -/
def Obligations.AluWritesFlagsWhateverItsDestination : Prop :=
  (∀ (op : AluOp) (a : Args) (s t : State), effectHolds a.eff s.flags = true →
    exec (aluInstr op a) s = .next t →
    t.flags = (aluOut op s.signedMode s.ovf (dstVal a s) (srcVal a s)).flags ∧
      t.ovf = (aluOut op s.signedMode s.ovf (dstVal a s) (srcVal a s)).ovf) ∧
  ∀ (a : Args) (s t : State), exec (.copy a) s = .next t → t.flags = s.flags ∧ t.ovf = s.ovf

/-- After the store `pc` is advanced by one unless the destination was `0.reg`, also where a store to
`4.reg` halts the processor; a processor halted by HALT stands at the HALT
(40_common_operands.md R80; decisions D6, D15). -/
def Obligations.PcAdvancesUnlessStoredTo : Prop :=
  (∀ (i : Instr) (a : Args) (s t : State), args? i = some a → a.dst ≠ .pc → exec i s = .next t →
    t.pc = s.pc + 1#16) ∧
  (∀ (a : Args) (s t : State), a.dst = .pc → effectHolds a.eff s.flags = true → s.copyWidth = 0#6 →
    exec (.copy a) s = .next t → t.pc = srcVal a s) ∧
  (∀ (op : AluOp) (a : Args) (s t : State), a.dst = .pc → effectHolds a.eff s.flags = true →
    exec (aluInstr op a) s = .next t →
    t.pc = (aluOut op s.signedMode s.ovf (dstVal a s) (srcVal a s)).result) ∧
  (∀ (e : Effect) (s t : State), effectHolds e s.flags = true → exec (.halt e) s = .next t →
    t.pc = s.pc)

/-- The two ways into the halted state: a running processor that a step halts ran a HALT whose effect
held, or an instruction whose effect held and whose destination is the control register, and in the
second case `pc` stands at the next word; nothing else changes the control register (10_state.md R24;
60_exceptions.md R136; decision D15). -/
def Obligations.TwoWaysIntoTheHaltedState : Prop :=
  ∀ s t : State, s.halted = false → step s = .next t → t.cr ≠ s.cr →
    ∃ i, decodeWord s.cfg.classBit (s.word s.pc) = some i ∧ effectHolds (effect i) s.flags = true ∧
    ((isHalt i = true ∧ t.halted = true ∧ t.pc = s.pc) ∨
      ∃ a, args? i = some a ∧ a.dst = .cr ∧ t.pc = s.pc + 1#16)

/-- The data writes of one instruction: an instruction that is no COPY of non-zero width changes at most
the one word of local memory its `mem` destination names, after the decrement of a push, and none where
its destination is no `mem` argument, `cr.T` is 1 or its effect fails (20_memory.md R31, R37; decisions
D8, D10). -/
def Obligations.OneInstructionWritesOneWord : Prop :=
  ∀ (i : Instr) (s t : State) (w : Word), Memory.wf s.mem → exec i s = .next t →
    (isCopy i = true → s.copyWidth = 0#6) → t.word w ≠ s.word w →
    effectHolds (effect i) s.flags = true ∧ s.toSpace = .localMem ∧
      ∃ a r, args? i = some a ∧ a.dst = .mem r ∧ w = storeAddr a s r

/-- A pop undoes a push: in local memory, pushing a word through a register and then popping it into
another register delivers the word and gives the first register back (40_common_operands.md R78;
decision D8). -/
def Obligations.PopUndoesPush : Prop :=
  ∀ (s : State) (p q : Reg) (v : Word), Memory.wf s.mem → p ≠ q → s.copyWidth = 0#6 →
    s.fromSpace = .localMem → s.toSpace = .localMem → s.implemented (s.reg p - 1#16) = true →
    ∃ t u, exec (.copy ⟨.always, .mem p, .val, true, v⟩) s = .next t ∧
      exec (.copy ⟨.always, .reg q, .mem p, true, 0#16⟩) t = .next u ∧
      u.reg p = s.reg p ∧ u.reg q = v ∧ u.flags = s.flags ∧ u.pc = s.pc + 2#16
end

