-- ==== Sys2Proof/Laws/Memory.lean ====
section
/-! SUPPORT. The laws of local memory: read after write, and every write keeps the canonical form. -/

namespace Sys2Proof.Machine

theorem consCell_mem {k : Nat} {b : Byte} {rest : Memory} {p : Host.Cell}
    (h : p ∈ consCell k b rest) : p = (k, b) ∨ p ∈ rest := by
  unfold consCell at h
  split at h
  · exact .inr h
  · simpa using h

theorem writeByte_mem {m : Memory} {k : Nat} {b : Byte} {p : Host.Cell}
    (h : p ∈ writeByte m k b) : p = (k, b) ∨ p ∈ m := by
  induction m with
  | nil => exact consCell_mem h
  | cons q rest ih =>
    obtain ⟨a, c⟩ := q
    simp only [writeByte] at h
    split at h
    · exact consCell_mem h
    · split at h
      · exact (consCell_mem h).imp_right (List.mem_cons_of_mem _)
      · rcases List.mem_cons.mp h with h | h
        · exact .inr (h ▸ List.mem_cons_self)
        · exact (ih h).imp_right (List.mem_cons_of_mem _)

theorem consCell_wf {k : Nat} {b : Byte} {rest : Memory} (h : Memory.wf rest)
    (hk : ∀ p ∈ rest, k < p.1) : Memory.wf (consCell k b rest) := by
  unfold consCell
  split
  · exact h
  · next hb =>
    refine ⟨List.pairwise_cons.mpr ⟨hk, h.1⟩, ?_⟩
    intro p hp
    rcases List.mem_cons.mp hp with rfl | hp
    · exact hb
    · exact h.2 p hp

/-- A byte write keeps the canonical form. -/
theorem writeByte_wf {m : Memory} (h : Memory.wf m) (k : Nat) (b : Byte) :
    Memory.wf (writeByte m k b) := by
  induction m with
  | nil => exact consCell_wf h (by simp)
  | cons q rest ih =>
    obtain ⟨a, c⟩ := q
    obtain ⟨hlt, hpair⟩ := List.pairwise_cons.mp h.1
    have hrest : Memory.wf rest := ⟨hpair, fun p hp => h.2 p (List.mem_cons_of_mem _ hp)⟩
    simp only [writeByte]
    split
    · next hka =>
      refine consCell_wf h ?_
      intro p hp
      rcases List.mem_cons.mp hp with rfl | hp
      · exact hka
      · exact hka.trans (hlt p hp)
    · split
      · next hka => exact consCell_wf hrest (fun p hp => hka ▸ hlt p hp)
      · next h1 h2 =>
        refine ⟨List.pairwise_cons.mpr ⟨?_, (ih hrest).1⟩, ?_⟩
        · intro p hp
          rcases writeByte_mem hp with rfl | hp
          · show a < k
            omega
          · exact hlt p hp
        · intro p hp
          rcases List.mem_cons.mp hp with rfl | hp
          · exact h.2 _ List.mem_cons_self
          · exact (ih hrest).2 p hp

/-- A word write keeps the canonical form. -/
theorem writeWord_wf {m : Memory} (h : Memory.wf m) (a v : Word) : Memory.wf (writeWord m a v) :=
  writeByte_wf (writeByte_wf h _ _) _ _

theorem readByte_of_lt {m : Memory} (k : Nat) (h : ∀ p ∈ m, k < p.1) :
    readByte m k = unlistedByte := by
  induction m with
  | nil => rfl
  | cons q rest ih =>
    obtain ⟨a, c⟩ := q
    have ha : k < a := h (a, c) List.mem_cons_self
    simp only [readByte, if_neg (by omega : ¬ a = k)]
    exact ih (fun p hp => h p (List.mem_cons_of_mem _ hp))

theorem readByte_consCell {rest : Memory} {k : Nat} {b : Byte} (j : Nat)
    (hk : ∀ p ∈ rest, k < p.1) :
    readByte (consCell k b rest) j = if j = k then b else readByte rest j := by
  unfold consCell
  split
  · next hb =>
    split
    · next hj => rw [hj, readByte_of_lt k hk, hb]
    · rfl
  · simp only [readByte, eq_comm]

/-- What a byte read gives after a byte write to a canonical memory. -/
theorem readByte_writeByte {m : Memory} (h : Memory.wf m) (k : Nat) (b : Byte) (j : Nat) :
    readByte (writeByte m k b) j = if j = k then b else readByte m j := by
  induction m with
  | nil => exact readByte_consCell j (by simp)
  | cons q rest ih =>
    obtain ⟨a, c⟩ := q
    obtain ⟨hlt, hpair⟩ := List.pairwise_cons.mp h.1
    have hrest : Memory.wf rest := ⟨hpair, fun p hp => h.2 p (List.mem_cons_of_mem _ hp)⟩
    simp only [writeByte]
    split
    · next hka =>
      refine readByte_consCell j ?_
      intro p hp
      rcases List.mem_cons.mp hp with rfl | hp
      · exact hka
      · exact hka.trans (hlt p hp)
    · split
      · next hka =>
        subst hka
        rw [readByte_consCell j hlt]
        split
        · rfl
        · next hj => simp only [readByte, if_neg (fun e => hj (Eq.symm e))]
      · next h1 h2 =>
        simp only [readByte, ih hrest]
        split
        · next haj => rw [if_neg (by omega)]
        · rfl

/-- A word is its two bytes. -/
theorem bytes_of_word (v : Word) : v.extractLsb' 8 8 ++ v.extractLsb' 0 8 = v := by
  apply BitVec.eq_of_getLsbD_eq
  intro i hi
  rw [BitVec.getLsbD_append, BitVec.getLsbD_extractLsb', BitVec.getLsbD_extractLsb']
  by_cases h : i < 8
  · simp [h]
  · have h8 : i - 8 < 8 := by omega
    simp [h, h8, show 8 + (i - 8) = i by omega]

/-- What a word read gives after a word write to a canonical memory. -/
theorem readWord_writeWord {m : Memory} (h : Memory.wf m) (a v b : Word) :
    readWord (writeWord m a v) b = if b = a then v else readWord m b := by
  have hw := writeByte_wf h (2 * a.toNat) (v.extractLsb' 0 8)
  simp only [readWord, writeWord, readByte_writeByte hw, readByte_writeByte h]
  by_cases hab : b = a
  · subst hab
    have h1 : 2 * b.toNat + 1 ≠ 2 * b.toNat := by omega
    have h2 : 2 * b.toNat ≠ 2 * b.toNat + 1 := by omega
    simp only [if_true, if_neg h2]
    exact bytes_of_word v
  · have hn : b.toNat ≠ a.toNat := fun e => hab (BitVec.eq_of_toNat_eq e)
    rw [if_neg hab, if_neg (by omega), if_neg (by omega), if_neg (by omega), if_neg (by omega)]

/-- A cell of the memory after a word write is a cell of the word or of the memory before. -/
theorem writeWord_key {m : Memory} {a v : Word} {p : Host.Cell} (h : p ∈ writeWord m a v) :
    p.1 = 2 * a.toNat ∨ p.1 = 2 * a.toNat + 1 ∨ p ∈ m := by
  rcases writeByte_mem h with h | h
  · exact .inr (.inl (congrArg Prod.fst h))
  · rcases writeByte_mem h with h | h
    · exact .inl (congrArg Prod.fst h)
    · exact .inr (.inr h)

end Sys2Proof.Machine
end

