-- ==== Sys2Proof/Laws/State.lean ====
section
/-! SUPPORT. What each update of the state does to each field and to each accessor. -/

namespace Sys2Proof.Machine

@[simp] theorem setPc_pc (s : State) (v : Word) : (s.setPc v).pc = v := rfl
@[simp] theorem setPc_x1 (s : State) (v : Word) : (s.setPc v).x1 = s.x1 := rfl
@[simp] theorem setPc_x2 (s : State) (v : Word) : (s.setPc v).x2 = s.x2 := rfl
@[simp] theorem setPc_x3 (s : State) (v : Word) : (s.setPc v).x3 = s.x3 := rfl
@[simp] theorem setPc_cr (s : State) (v : Word) : (s.setPc v).cr = s.cr := rfl
@[simp] theorem setPc_ovf (s : State) (v : Word) : (s.setPc v).ovf = s.ovf := rfl
@[simp] theorem setPc_flags (s : State) (v : Word) : (s.setPc v).flags = s.flags := rfl
@[simp] theorem setPc_mem (s : State) (v : Word) : (s.setPc v).mem = s.mem := rfl
@[simp] theorem setPc_banked (s : State) (v : Word) : (s.setPc v).banked = s.banked := rfl
@[simp] theorem setPc_cfg (s : State) (v : Word) : (s.setPc v).cfg = s.cfg := rfl
@[simp] theorem setPc_reg (s : State) (v : Word) (r : Reg) : (s.setPc v).reg r = s.reg r := by cases r <;> rfl
@[simp] theorem setPc_halted (s : State) (v : Word) : (s.setPc v).halted = s.halted := rfl
@[simp] theorem setPc_signedMode (s : State) (v : Word) : (s.setPc v).signedMode = s.signedMode := rfl
@[simp] theorem setPc_copyWidth (s : State) (v : Word) : (s.setPc v).copyWidth = s.copyWidth := rfl
@[simp] theorem setPc_fromSpace (s : State) (v : Word) : (s.setPc v).fromSpace = s.fromSpace := rfl
@[simp] theorem setPc_toSpace (s : State) (v : Word) : (s.setPc v).toSpace = s.toSpace := rfl
@[simp] theorem setPc_implemented (s : State) (v : Word) (w : Word) : (s.setPc v).implemented w = s.implemented w := rfl
@[simp] theorem setPc_word (s : State) (v : Word) (w : Word) : (s.setPc v).word w = s.word w := rfl

@[simp] theorem advancePc_pc (s : State) : (s.advancePc).pc = s.pc + 1#16 := rfl
@[simp] theorem advancePc_x1 (s : State) : (s.advancePc).x1 = s.x1 := rfl
@[simp] theorem advancePc_x2 (s : State) : (s.advancePc).x2 = s.x2 := rfl
@[simp] theorem advancePc_x3 (s : State) : (s.advancePc).x3 = s.x3 := rfl
@[simp] theorem advancePc_cr (s : State) : (s.advancePc).cr = s.cr := rfl
@[simp] theorem advancePc_ovf (s : State) : (s.advancePc).ovf = s.ovf := rfl
@[simp] theorem advancePc_flags (s : State) : (s.advancePc).flags = s.flags := rfl
@[simp] theorem advancePc_mem (s : State) : (s.advancePc).mem = s.mem := rfl
@[simp] theorem advancePc_banked (s : State) : (s.advancePc).banked = s.banked := rfl
@[simp] theorem advancePc_cfg (s : State) : (s.advancePc).cfg = s.cfg := rfl
@[simp] theorem advancePc_reg (s : State) (r : Reg) : (s.advancePc).reg r = s.reg r := by cases r <;> rfl
@[simp] theorem advancePc_halted (s : State) : (s.advancePc).halted = s.halted := rfl
@[simp] theorem advancePc_signedMode (s : State) : (s.advancePc).signedMode = s.signedMode := rfl
@[simp] theorem advancePc_copyWidth (s : State) : (s.advancePc).copyWidth = s.copyWidth := rfl
@[simp] theorem advancePc_fromSpace (s : State) : (s.advancePc).fromSpace = s.fromSpace := rfl
@[simp] theorem advancePc_toSpace (s : State) : (s.advancePc).toSpace = s.toSpace := rfl
@[simp] theorem advancePc_implemented (s : State) (w : Word) : (s.advancePc).implemented w = s.implemented w := rfl
@[simp] theorem advancePc_word (s : State) (w : Word) : (s.advancePc).word w = s.word w := rfl

@[simp] theorem setCr_pc (s : State) (v : Word) : (s.setCr v).pc = s.pc := rfl
@[simp] theorem setCr_x1 (s : State) (v : Word) : (s.setCr v).x1 = s.x1 := rfl
@[simp] theorem setCr_x2 (s : State) (v : Word) : (s.setCr v).x2 = s.x2 := rfl
@[simp] theorem setCr_x3 (s : State) (v : Word) : (s.setCr v).x3 = s.x3 := rfl
@[simp] theorem setCr_cr (s : State) (v : Word) : (s.setCr v).cr = v &&& crMask := rfl
@[simp] theorem setCr_ovf (s : State) (v : Word) : (s.setCr v).ovf = s.ovf := rfl
@[simp] theorem setCr_flags (s : State) (v : Word) : (s.setCr v).flags = s.flags := rfl
@[simp] theorem setCr_mem (s : State) (v : Word) : (s.setCr v).mem = s.mem := rfl
@[simp] theorem setCr_banked (s : State) (v : Word) : (s.setCr v).banked = s.banked := rfl
@[simp] theorem setCr_cfg (s : State) (v : Word) : (s.setCr v).cfg = s.cfg := rfl
@[simp] theorem setCr_reg (s : State) (v : Word) (r : Reg) : (s.setCr v).reg r = s.reg r := by cases r <;> rfl
@[simp] theorem setCr_implemented (s : State) (v : Word) (w : Word) : (s.setCr v).implemented w = s.implemented w := rfl
@[simp] theorem setCr_word (s : State) (v : Word) (w : Word) : (s.setCr v).word w = s.word w := rfl

@[simp] theorem setMem_pc (s : State) (m : Memory) : (s.setMem m).pc = s.pc := rfl
@[simp] theorem setMem_x1 (s : State) (m : Memory) : (s.setMem m).x1 = s.x1 := rfl
@[simp] theorem setMem_x2 (s : State) (m : Memory) : (s.setMem m).x2 = s.x2 := rfl
@[simp] theorem setMem_x3 (s : State) (m : Memory) : (s.setMem m).x3 = s.x3 := rfl
@[simp] theorem setMem_cr (s : State) (m : Memory) : (s.setMem m).cr = s.cr := rfl
@[simp] theorem setMem_ovf (s : State) (m : Memory) : (s.setMem m).ovf = s.ovf := rfl
@[simp] theorem setMem_flags (s : State) (m : Memory) : (s.setMem m).flags = s.flags := rfl
@[simp] theorem setMem_mem (s : State) (m : Memory) : (s.setMem m).mem = m := rfl
@[simp] theorem setMem_banked (s : State) (m : Memory) : (s.setMem m).banked = s.banked := rfl
@[simp] theorem setMem_cfg (s : State) (m : Memory) : (s.setMem m).cfg = s.cfg := rfl
@[simp] theorem setMem_reg (s : State) (m : Memory) (r : Reg) : (s.setMem m).reg r = s.reg r := by cases r <;> rfl
@[simp] theorem setMem_halted (s : State) (m : Memory) : (s.setMem m).halted = s.halted := rfl
@[simp] theorem setMem_signedMode (s : State) (m : Memory) : (s.setMem m).signedMode = s.signedMode := rfl
@[simp] theorem setMem_copyWidth (s : State) (m : Memory) : (s.setMem m).copyWidth = s.copyWidth := rfl
@[simp] theorem setMem_fromSpace (s : State) (m : Memory) : (s.setMem m).fromSpace = s.fromSpace := rfl
@[simp] theorem setMem_toSpace (s : State) (m : Memory) : (s.setMem m).toSpace = s.toSpace := rfl
@[simp] theorem setMem_implemented (s : State) (m : Memory) (w : Word) : (s.setMem m).implemented w = s.implemented w := rfl
@[simp] theorem setMem_word (s : State) (m : Memory) (w : Word) : (s.setMem m).word w = readWord m w := rfl

@[simp] theorem record_pc (s : State) (e : BankedEvent) : (s.record e).pc = s.pc := rfl
@[simp] theorem record_x1 (s : State) (e : BankedEvent) : (s.record e).x1 = s.x1 := rfl
@[simp] theorem record_x2 (s : State) (e : BankedEvent) : (s.record e).x2 = s.x2 := rfl
@[simp] theorem record_x3 (s : State) (e : BankedEvent) : (s.record e).x3 = s.x3 := rfl
@[simp] theorem record_cr (s : State) (e : BankedEvent) : (s.record e).cr = s.cr := rfl
@[simp] theorem record_ovf (s : State) (e : BankedEvent) : (s.record e).ovf = s.ovf := rfl
@[simp] theorem record_flags (s : State) (e : BankedEvent) : (s.record e).flags = s.flags := rfl
@[simp] theorem record_mem (s : State) (e : BankedEvent) : (s.record e).mem = s.mem := rfl
@[simp] theorem record_banked (s : State) (e : BankedEvent) : (s.record e).banked = s.banked ++ [e] := rfl
@[simp] theorem record_cfg (s : State) (e : BankedEvent) : (s.record e).cfg = s.cfg := rfl
@[simp] theorem record_reg (s : State) (e : BankedEvent) (r : Reg) : (s.record e).reg r = s.reg r := by cases r <;> rfl
@[simp] theorem record_halted (s : State) (e : BankedEvent) : (s.record e).halted = s.halted := rfl
@[simp] theorem record_signedMode (s : State) (e : BankedEvent) : (s.record e).signedMode = s.signedMode := rfl
@[simp] theorem record_copyWidth (s : State) (e : BankedEvent) : (s.record e).copyWidth = s.copyWidth := rfl
@[simp] theorem record_fromSpace (s : State) (e : BankedEvent) : (s.record e).fromSpace = s.fromSpace := rfl
@[simp] theorem record_toSpace (s : State) (e : BankedEvent) : (s.record e).toSpace = s.toSpace := rfl
@[simp] theorem record_implemented (s : State) (e : BankedEvent) (w : Word) : (s.record e).implemented w = s.implemented w := rfl
@[simp] theorem record_word (s : State) (e : BankedEvent) (w : Word) : (s.record e).word w = s.word w := rfl

@[simp] theorem setAlu_pc (s : State) (f : Flags) (o : Word) : (s.setAlu f o).pc = s.pc := rfl
@[simp] theorem setAlu_x1 (s : State) (f : Flags) (o : Word) : (s.setAlu f o).x1 = s.x1 := rfl
@[simp] theorem setAlu_x2 (s : State) (f : Flags) (o : Word) : (s.setAlu f o).x2 = s.x2 := rfl
@[simp] theorem setAlu_x3 (s : State) (f : Flags) (o : Word) : (s.setAlu f o).x3 = s.x3 := rfl
@[simp] theorem setAlu_cr (s : State) (f : Flags) (o : Word) : (s.setAlu f o).cr = s.cr := rfl
@[simp] theorem setAlu_ovf (s : State) (f : Flags) (o : Word) : (s.setAlu f o).ovf = o := rfl
@[simp] theorem setAlu_flags (s : State) (f : Flags) (o : Word) : (s.setAlu f o).flags = f := rfl
@[simp] theorem setAlu_mem (s : State) (f : Flags) (o : Word) : (s.setAlu f o).mem = s.mem := rfl
@[simp] theorem setAlu_banked (s : State) (f : Flags) (o : Word) : (s.setAlu f o).banked = s.banked := rfl
@[simp] theorem setAlu_cfg (s : State) (f : Flags) (o : Word) : (s.setAlu f o).cfg = s.cfg := rfl
@[simp] theorem setAlu_reg (s : State) (f : Flags) (o : Word) (r : Reg) : (s.setAlu f o).reg r = s.reg r := by cases r <;> rfl
@[simp] theorem setAlu_halted (s : State) (f : Flags) (o : Word) : (s.setAlu f o).halted = s.halted := rfl
@[simp] theorem setAlu_signedMode (s : State) (f : Flags) (o : Word) : (s.setAlu f o).signedMode = s.signedMode := rfl
@[simp] theorem setAlu_copyWidth (s : State) (f : Flags) (o : Word) : (s.setAlu f o).copyWidth = s.copyWidth := rfl
@[simp] theorem setAlu_fromSpace (s : State) (f : Flags) (o : Word) : (s.setAlu f o).fromSpace = s.fromSpace := rfl
@[simp] theorem setAlu_toSpace (s : State) (f : Flags) (o : Word) : (s.setAlu f o).toSpace = s.toSpace := rfl
@[simp] theorem setAlu_implemented (s : State) (f : Flags) (o : Word) (w : Word) : (s.setAlu f o).implemented w = s.implemented w := rfl
@[simp] theorem setAlu_word (s : State) (f : Flags) (o : Word) (w : Word) : (s.setAlu f o).word w = s.word w := rfl

@[simp] theorem setReg_pc (s : State) (r : Reg) (v : Word) : (s.setReg r v).pc = s.pc := by cases r <;> rfl
@[simp] theorem setReg_cr (s : State) (r : Reg) (v : Word) : (s.setReg r v).cr = s.cr := by cases r <;> rfl
@[simp] theorem setReg_ovf (s : State) (r : Reg) (v : Word) : (s.setReg r v).ovf = s.ovf := by cases r <;> rfl
@[simp] theorem setReg_flags (s : State) (r : Reg) (v : Word) : (s.setReg r v).flags = s.flags := by cases r <;> rfl
@[simp] theorem setReg_mem (s : State) (r : Reg) (v : Word) : (s.setReg r v).mem = s.mem := by cases r <;> rfl
@[simp] theorem setReg_banked (s : State) (r : Reg) (v : Word) : (s.setReg r v).banked = s.banked := by cases r <;> rfl
@[simp] theorem setReg_cfg (s : State) (r : Reg) (v : Word) : (s.setReg r v).cfg = s.cfg := by cases r <;> rfl
@[simp] theorem setReg_halted (s : State) (r : Reg) (v : Word) : (s.setReg r v).halted = s.halted := by cases r <;> rfl
@[simp] theorem setReg_signedMode (s : State) (r : Reg) (v : Word) : (s.setReg r v).signedMode = s.signedMode := by cases r <;> rfl
@[simp] theorem setReg_copyWidth (s : State) (r : Reg) (v : Word) : (s.setReg r v).copyWidth = s.copyWidth := by cases r <;> rfl
@[simp] theorem setReg_fromSpace (s : State) (r : Reg) (v : Word) : (s.setReg r v).fromSpace = s.fromSpace := by cases r <;> rfl
@[simp] theorem setReg_toSpace (s : State) (r : Reg) (v : Word) : (s.setReg r v).toSpace = s.toSpace := by cases r <;> rfl
@[simp] theorem setReg_implemented (s : State) (r : Reg) (v : Word) (w : Word) : (s.setReg r v).implemented w = s.implemented w := by cases r <;> rfl
@[simp] theorem setReg_word (s : State) (r : Reg) (v : Word) (w : Word) : (s.setReg r v).word w = s.word w := by cases r <;> rfl

/-- A register reads what was written to it, every other register what it held. -/
@[simp] theorem setReg_reg (s : State) (r q : Reg) (v : Word) :
    (s.setReg r v).reg q = if q = r then v else s.reg q := by
  cases r <;> cases q <;> rfl

/-- Two states with equal fields are equal, the registers compared through `reg`. -/
theorem state_ext {s t : State} (hpc : s.pc = t.pc) (hreg : ∀ r, s.reg r = t.reg r) (hcr : s.cr = t.cr)
    (hovf : s.ovf = t.ovf) (hflags : s.flags = t.flags) (hmem : s.mem = t.mem)
    (hbanked : s.banked = t.banked) (hcfg : s.cfg = t.cfg) : s = t := by
  have h1 := hreg .r1
  have h2 := hreg .r2
  have h3 := hreg .r3
  cases s
  cases t
  simp_all [State.reg]

end Sys2Proof.Machine
end

