-- ==== Sys2Proof/Laws/Ops.lean ====
section
/-! SUPPORT. One lemma per shared operation, saying once everything it can do. -/

namespace Sys2Proof.Machine

open Sys2Proof.Safety

@[simp] theorem logged_pc (s : State) (e) : (logged s e).pc = s.pc := rfl
@[simp] theorem logged_reg (s : State) (e) (r : Reg) : (logged s e).reg r = s.reg r := by
  cases r <;> rfl
@[simp] theorem logged_cr (s : State) (e) : (logged s e).cr = s.cr := rfl
@[simp] theorem logged_ovf (s : State) (e) : (logged s e).ovf = s.ovf := rfl
@[simp] theorem logged_flags (s : State) (e) : (logged s e).flags = s.flags := rfl
@[simp] theorem logged_mem (s : State) (e) : (logged s e).mem = s.mem := rfl
@[simp] theorem logged_word (s : State) (e) (w : Word) : (logged s e).word w = s.word w := rfl
@[simp] theorem logged_banked (s : State) (e) : (logged s e).banked = s.banked ++ e := rfl
@[simp] theorem logged_cfg (s : State) (e) : (logged s e).cfg = s.cfg := rfl
@[simp] theorem logged_toSpace (s : State) (e) : (logged s e).toSpace = s.toSpace := rfl
@[simp] theorem logged_fromSpace (s : State) (e) : (logged s e).fromSpace = s.fromSpace := rfl
@[simp] theorem logged_implemented (s : State) (e) (w : Word) :
    (logged s e).implemented w = s.implemented w := rfl
@[simp] theorem logged_nil (s : State) : logged s [] = s := by simp [logged]
@[simp] theorem logged_logged (s : State) (e f) : logged (logged s e) f = logged s (e ++ f) := by
  simp [logged, List.append_assoc]

@[simp] theorem logged_record (s : State) (evs : List BankedEvent) (e : BankedEvent) :
    (logged s evs).record e = logged s (evs ++ [e]) := by
  simp [logged, State.record]

/-- A read completes exactly where its address is implemented or banked; it gives the value of the
address and adds to the record what a banked read adds. -/
theorem readData_ok (sp : Space) (a : Word) (s : State) (p : Word × State) :
    readData sp a s = .ok p ↔ (sp = .localMem → s.implemented a = true) ∧
      p = (valueAt s s.banked sp a, logged s (readEvents s s.banked sp a)) := by
  cases sp
  · by_cases h : s.implemented a = true <;> simp [readData, h, valueAt, readEvents, @eq_comm _ p]
  · simp [readData, valueAt, readEvents, logged, State.record, @eq_comm _ p]

/-- A write completes exactly where its address is implemented or banked; it changes local memory or
the record, nothing else. -/
theorem writeData_ok (sp : Space) (a v : Word) (s t : State) :
    writeData sp a v s = .ok t ↔ (sp = .localMem → s.implemented a = true) ∧
      t = if sp = .localMem then s.setMem (writeWord s.mem a v) else s.record (.write a v) := by
  cases sp
  · by_cases h : s.implemented a = true <;> simp [writeData, h, @eq_comm _ t]
  · simp [writeData, @eq_comm _ t]

/-- The source read completes exactly where it is readable, with the value and record R75 gives. -/
theorem sourceValue_ok (a : Args) (s : State) (p : Word × State) :
    sourceValue a s = .ok p ↔ SourceReadable a s ∧ p = (srcVal a s, logged s (srcEvents a s)) := by
  unfold sourceValue sourceAt SourceReadable srcVal srcEvents
  cases a.src <;> simp [readData_ok, @eq_comm _ p]

/-- The destination operand read, after the source read, completes exactly where it is readable. -/
theorem destOperand_ok (a : Args) (s : State) (p : Word × State) :
    destOperand a.dst (logged s (srcEvents a s)) = .ok p ↔ DestReadable a s ∧
      p = (dstVal a s, logged s (srcEvents a s ++ dstEvents a s)) := by
  unfold destOperand DestReadable dstVal dstEvents
  cases a.dst <;> simp [readData_ok, @eq_comm _ p, valueAt, readEvents]

/-- The increment moves registers only. -/
theorem moveIncrement_frame (a : Args) (s : State) :
    (moveIncrement a s).pc = s.pc ∧ (moveIncrement a s).cr = s.cr ∧
      (moveIncrement a s).ovf = s.ovf ∧ (moveIncrement a s).flags = s.flags ∧
      (moveIncrement a s).mem = s.mem ∧ (moveIncrement a s).banked = s.banked ∧
      (moveIncrement a s).cfg = s.cfg := by
  unfold moveIncrement
  split
  · split <;> simp
  · simp

/-- The register the increment moves, and by how much (R78). -/
theorem moveIncrement_reg (a : Args) (s : State) (q : Reg) :
    (moveIncrement a s).reg q =
      if a.inc = true ∧ a.dst = .mem q then s.reg q - 1#16
      else if a.inc = true ∧ a.dst.isMem = false ∧ a.src = .mem q then s.reg q + 1#16
      else s.reg q := by
  obtain ⟨e, d, sr, i, m⟩ := a
  cases i
  · simp [moveIncrement]
  · cases d with
    | mem r => by_cases h : q = r <;> simp [moveIncrement, Dst.isMem, h, Ne.symm]
    | pc | cr | reg r =>
      cases sr with
      | mem r => by_cases h : q = r <;> simp [moveIncrement, Dst.isMem, h, Ne.symm]
      | pc | val | reg r => simp [moveIncrement, Dst.isMem]

/-- The increment and the store complete exactly where the store is in implemented or banked memory. -/
theorem store_completes (a : Args) (res : Word) (s : State) (evs : List BankedEvent)
    (h : Storable a s) :
    ∃ t, storeResult a.dst res (moveIncrement a (logged s evs)) = .ok t := by
  obtain ⟨e, d, sr, i, m⟩ := a
  cases d with
  | pc | cr | reg r => exact ⟨_, rfl⟩
  | mem r =>
    refine ⟨_, (writeData_ok _ _ _ _ _).mpr ⟨?_, rfl⟩⟩
    intro hsp
    have hf := moveIncrement_frame ⟨e, .mem r, sr, i, m⟩ (logged s evs)
    have hto : (moveIncrement ⟨e, .mem r, sr, i, m⟩ (logged s evs)).toSpace = s.toSpace := by
      simp [State.toSpace, hf.2.1]
    have hst := h r rfl (hto ▸ hsp)
    simp only [State.implemented, hf.2.2.2.2.2.2, logged_cfg] at *
    rw [moveIncrement_reg]
    cases i <;> simpa [storeAddr] using hst

/-- A `mem` destination as the store meets it, after the increment. -/
theorem store_operands (a : Args) (s : State) (evs : List BankedEvent) (r : Reg) (h : a.dst = .mem r) :
    (moveIncrement a (logged s evs)).toSpace = s.toSpace ∧
      (moveIncrement a (logged s evs)).reg r + 0#16 = storeAddr a s r := by
  have hf := moveIncrement_frame a (logged s evs)
  refine ⟨by simp [State.toSpace, hf.2.1], ?_⟩
  rw [moveIncrement_reg]
  cases hi : a.inc <;> simp [storeAddr, hi, h]

/-- What the increment, the store and the program counter leave outside memory (R78 to R80). -/
theorem store_frame {a : Args} {res : Word} {s u : State} {evs : List BankedEvent}
    (h : storeResult a.dst res (moveIncrement a (logged s evs)) = .ok u) :
    (nextPc a.dst u).pc = (if a.dst = .pc then res else s.pc + 1#16) ∧
    (nextPc a.dst u).cr = (if a.dst = .cr then res &&& 0x03FF#16 else s.cr) ∧
    (∀ q, (nextPc a.dst u).reg q = regAfter a res s q) ∧
    (nextPc a.dst u).banked = s.banked ++ evs ++ storeEvents a res s ∧
    (nextPc a.dst u).cfg = s.cfg ∧ (nextPc a.dst u).flags = s.flags ∧
    (nextPc a.dst u).ovf = s.ovf := by
  obtain ⟨hpc, hcr, hovf, hflags, -, hbanked, hcfg⟩ := moveIncrement_frame a (logged s evs)
  have hreg := moveIncrement_reg a (logged s evs)
  have hmem := store_operands a s evs
  simp only [logged_pc, logged_cr, logged_ovf, logged_flags, logged_banked, logged_cfg,
    logged_reg] at hpc hcr hovf hflags hbanked hcfg hreg
  simp only [storeResult, storeAt] at h
  cases hd : a.dst with
  | pc =>
    simp only [hd, Except.ok.injEq] at h
    subst h
    simp [nextPc, hcr, hovf, hflags, hbanked, hcfg, hreg, regAfter, storeEvents, hd, Dst.isMem]
  | cr =>
    simp only [hd, Except.ok.injEq] at h
    subst h
    simp [nextPc, hpc, hovf, hflags, hbanked, hcfg, hreg, regAfter, storeEvents, hd, Dst.isMem, crMask]
  | reg r =>
    simp only [hd, Except.ok.injEq] at h
    subst h
    simp [nextPc, hpc, hcr, hovf, hflags, hbanked, hcfg, hreg, regAfter, storeEvents, hd, Dst.isMem]
    intro q
    by_cases hq : q = r <;> simp [hq, Ne.symm]
  | mem r =>
    obtain ⟨hto, haddr⟩ := hmem r hd
    simp only [hd, hto, haddr, writeData_ok] at h
    obtain ⟨-, rfl⟩ := h
    cases hsp : s.toSpace <;>
      simp [nextPc, hpc, hcr, hovf, hflags, hbanked, hcfg, hreg, regAfter, storeEvents, hd, hsp]

/-- What the increment, the store and the program counter do to local memory (R79), and that the store
was implemented. -/
theorem store_memory {a : Args} {res : Word} {s u : State} {evs : List BankedEvent}
    (h : storeResult a.dst res (moveIncrement a (logged s evs)) = .ok u) :
    Storable a s ∧
    ((nextPc a.dst u).mem = s.mem ∧ (∀ r, a.dst = .mem r → s.toSpace = .banked) ∨
      ∃ r, a.dst = .mem r ∧ s.toSpace = .localMem ∧
        (nextPc a.dst u).mem = writeWord s.mem (storeAddr a s r) res) := by
  obtain ⟨-, -, -, -, hmem, -, hcfg⟩ := moveIncrement_frame a (logged s evs)
  simp only [logged_mem, logged_cfg] at hmem hcfg
  have hops := store_operands a s evs
  simp only [storeResult, storeAt] at h
  cases hd : a.dst with
  | pc =>
    simp only [hd, Except.ok.injEq] at h
    subst h
    simp [nextPc, hmem, Storable, hd]
  | cr =>
    simp only [hd, Except.ok.injEq] at h
    subst h
    simp [nextPc, hmem, Storable, hd]
  | reg r =>
    simp only [hd, Except.ok.injEq] at h
    subst h
    simp [nextPc, hmem, Storable, hd]
  | mem r =>
    obtain ⟨hto, haddr⟩ := hops r hd
    simp only [hd, hto, haddr, writeData_ok] at h
    obtain ⟨himp, rfl⟩ := h
    refine ⟨?_, ?_⟩
    · intro q hq hsp
      obtain rfl : r = q := by simpa [hd] using hq
      simpa [State.implemented, hcfg] using himp hsp
    · cases hsp : s.toSpace
      · exact .inr ⟨r, rfl, rfl, by simp [nextPc, hmem]⟩
      · exact .inl ⟨by simp [nextPc, hmem], fun _ _ => rfl⟩

/-- What the increment, the store and the program counter leave (R78 to R80). -/
theorem store_leaves {a : Args} {res : Word} {s u : State} {evs : List BankedEvent}
    (hwf : Memory.wf s.mem) (h : storeResult a.dst res (moveIncrement a (logged s evs)) = .ok u) :
    Stored a res evs s (nextPc a.dst u) ∧ (nextPc a.dst u).flags = s.flags ∧
      (nextPc a.dst u).ovf = s.ovf := by
  obtain ⟨hpc, hcr, hreg, hbanked, hcfg, hflags, hovf⟩ := store_frame h
  obtain ⟨-, ⟨hm, hb⟩ | ⟨r, hd, hsp, hm⟩⟩ := store_memory h
  · refine ⟨⟨hpc, hcr, hreg, fun w => ?_, hbanked, hcfg, hm ▸ hwf⟩, hflags, hovf⟩
    rw [State.word, hm]
    unfold wordAfter
    cases hd : a.dst with
    | mem r => simp [hb r hd, State.word]
    | pc | cr | reg r => rfl
  · refine ⟨⟨hpc, hcr, hreg, fun w => ?_, hbanked, hcfg, hm ▸ writeWord_wf hwf _ _⟩, hflags, hovf⟩
    rw [State.word, hm, readWord_writeWord hwf]
    simp [wordAfter, hd, hsp, State.word]

end Sys2Proof.Machine
end

