-- ==== Sys2Proof/Laws/Frame.lean ====
section
/-! SUPPORT. What the frame of the ALU instructions, and a COPY of one word, can do. -/

namespace Sys2Proof.Machine

open Sys2Proof.Safety

/-- The operands of a one-operand operation (R76). -/
theorem unary_ok (f : Word → AluOut) (a : Args) (s : State) (p : AluOut × State) :
    unary f a s = .ok p ↔ SourceReadable a s ∧ p = (f (srcVal a s), logged s (srcEvents a s)) := by
  unfold unary
  cases h : sourceValue a s with
  | error e =>
    have hn : ¬SourceReadable a s := fun hr => by
      simp [(sourceValue_ok a s _).mpr ⟨hr, rfl⟩] at h
    simp [hn]
  | ok v =>
    obtain ⟨hr, rfl⟩ := (sourceValue_ok a s v).mp h
    simp [hr, @eq_comm _ p]

/-- The operands of a two-operand operation (R76). -/
theorem binary_ok (f : Word → Word → AluOut) (a : Args) (s : State) (p : AluOut × State) :
    binary f a s = .ok p ↔ SourceReadable a s ∧ DestReadable a s ∧
      p = (f (dstVal a s) (srcVal a s), logged s (srcEvents a s ++ dstEvents a s)) := by
  unfold binary
  cases h : sourceValue a s with
  | error e =>
    have hn : ¬SourceReadable a s := fun hr => by
      simp [(sourceValue_ok a s _).mpr ⟨hr, rfl⟩] at h
    simp [hn]
  | ok v =>
    obtain ⟨hr, rfl⟩ := (sourceValue_ok a s v).mp h
    cases hd : destOperand a.dst (logged s (srcEvents a s)) with
    | error e =>
      have hn : ¬DestReadable a s := fun hr => by
        simp [(destOperand_ok a s _).mpr ⟨hr, rfl⟩] at hd
      simp [hn, hd]
    | ok v =>
      obtain ⟨hr2, rfl⟩ := (destOperand_ok a s v).mp hd
      simp [hr, hr2, hd, @eq_comm _ p]

/-- An ALU instruction finishes by the store, then the flags and the overflow register. -/
theorem finishAlu_store {a : Args} {o : AluOut} {s t : State} (h : finishAlu a o s = .ok t) :
    ∃ u, storeResult a.dst o.result (moveIncrement a s) = .ok u ∧
      t = (nextPc a.dst u).setAlu o.flags o.ovf := by
  unfold finishAlu at h
  cases hs : storeResult a.dst o.result (moveIncrement a s) with
  | error e => simp [hs] at h
  | ok u =>
    simp only [hs, Except.ok.injEq] at h
    exact ⟨u, rfl, by rw [← h]; cases a.dst <;> rfl⟩

/-- What the increment, the store, the flags and the program counter of an ALU instruction leave. -/
theorem finishAlu_ok {a : Args} {o : AluOut} {s t : State} {evs : List BankedEvent}
    (hwf : Memory.wf s.mem) (h : finishAlu a o (logged s evs) = .ok t) :
    Stored a o.result evs s t ∧ t.ovf = o.ovf ∧ t.flags = o.flags := by
  obtain ⟨u, hs, rfl⟩ := finishAlu_store h
  obtain ⟨hst, -, -⟩ := store_leaves hwf hs
  exact ⟨⟨by simp [hst.pc], by simp [hst.cr], by simp [hst.reg], by simp [hst.word],
    by simp [hst.banked], by simp [hst.cfg], by simpa using hst.canonical⟩, rfl, rfl⟩

/-- An ALU instruction whose operands are read and whose store is implemented completes. -/
theorem execAlu_completes {operate : Args → State → Except Fault (AluOut × State)} {a : Args}
    {s : State} {o : AluOut} {evs : List BankedEvent} (heff : effectHolds a.eff s.flags = true)
    (hwf : Memory.wf s.mem) (hop : operate a s = .ok (o, logged s evs)) (hst : Storable a s) :
    ∃ t, execAlu operate a s = .next t ∧ Stored a o.result evs s t ∧ t.ovf = o.ovf ∧
      t.flags = o.flags := by
  obtain ⟨u, hu⟩ := store_completes a o.result s evs hst
  have hf : finishAlu a o (logged s evs) = .ok (nextPc a.dst (u.setAlu o.flags o.ovf)) := by
    simp [finishAlu, hu]
  exact ⟨_, by simp [execAlu, heff, hop, hf, toOutcome], finishAlu_ok hwf hf⟩

/-- A one-operand ALU instruction that is ready completes (42_alu.md R100). -/
theorem execAlu_unary {f : Word → AluOut} {a : Args} {s : State} (h : ReadyOne a s) :
    ∃ t, execAlu (unary f) a s = .next t ∧ Stored a (f (srcVal a s)).result (srcEvents a s) s t ∧
      t.ovf = (f (srcVal a s)).ovf ∧ t.flags = (f (srcVal a s)).flags :=
  execAlu_completes h.1 h.2.1 ((unary_ok f a s _).mpr ⟨h.2.2.1, rfl⟩) h.2.2.2

/-- A two-operand ALU instruction that is ready completes (42_alu.md R100). -/
theorem execAlu_binary {f : Word → Word → AluOut} {a : Args} {s : State} (h : ReadyTwo a s) :
    ∃ t, execAlu (binary f) a s = .next t ∧
      Stored a (f (dstVal a s) (srcVal a s)).result (srcEvents a s ++ dstEvents a s) s t ∧
      t.ovf = (f (dstVal a s) (srcVal a s)).ovf ∧ t.flags = (f (dstVal a s) (srcVal a s)).flags :=
  execAlu_completes h.1.1 h.1.2.1 ((binary_ok f a s _).mpr ⟨h.1.2.2.1, h.2, rfl⟩) h.1.2.2.2

/-- The next states of an ALU instruction: the effect fails and only `pc` advances, or FLAGS_ON_SKIP
writes the flags too, or the effect holds and the instruction finishes. -/
theorem execAlu_next {operate : Args → State → Except Fault (AluOut × State)} {a : Args} {s t : State}
    (h : execAlu operate a s = .next t) :
    (effectHolds a.eff s.flags = false ∧ s.cfg.flagsOnSkip = false ∧ t = s.advancePc) ∨
    (effectHolds a.eff s.flags = false ∧ s.cfg.flagsOnSkip = true ∧ ∃ o s1,
      operate a s = .ok (o, s1) ∧ t = (s1.setAlu o.flags o.ovf).advancePc) ∨
    (effectHolds a.eff s.flags = true ∧ ∃ o s1,
      operate a s = .ok (o, s1) ∧ finishAlu a o s1 = .ok t) := by
  unfold execAlu at h
  cases he : effectHolds a.eff s.flags
  · cases hf : s.cfg.flagsOnSkip
    · exact .inl ⟨rfl, rfl, by simpa [he, hf, eq_comm] using h⟩
    · cases ho : operate a s with
      | error e => simp [he, hf, ho] at h
      | ok p => exact .inr (.inl ⟨rfl, rfl, p.1, p.2, rfl, by simpa [he, hf, ho, eq_comm] using h⟩)
  · cases ho : operate a s with
    | error e => simp [he, ho] at h
    | ok p =>
      refine .inr (.inr ⟨rfl, p.1, p.2, rfl, ?_⟩)
      simp only [he, ho, if_true, toOutcome] at h
      cases hfin : finishAlu a p.1 p.2 with
      | error e => simp [hfin] at h
      | ok u => simpa [hfin] using h

/-- A COPY of one word reads its source and stores it. -/
theorem copyOne_store {a : Args} {s t : State} (h : copyOne a s = .ok t) :
    SourceReadable a s ∧ ∃ u,
      storeResult a.dst (srcVal a s) (moveIncrement a (logged s (srcEvents a s))) = .ok u ∧
      t = nextPc a.dst u := by
  unfold copyOne at h
  cases hv : sourceValue a s with
  | error e => simp [hv] at h
  | ok p =>
    obtain ⟨hr, rfl⟩ := (sourceValue_ok a s p).mp hv
    cases hs : storeResult a.dst (srcVal a s) (moveIncrement a (logged s (srcEvents a s))) with
    | error e => simp [hv, hs] at h
    | ok u => exact ⟨hr, u, rfl, by simpa [hv, hs, eq_comm] using h⟩

/-- What a COPY of one word leaves. -/
theorem copyOne_ok {a : Args} {s t : State} (hwf : Memory.wf s.mem) (h : copyOne a s = .ok t) :
    SourceReadable a s ∧ Stored a (srcVal a s) (srcEvents a s) s t ∧ t.flags = s.flags ∧
      t.ovf = s.ovf := by
  obtain ⟨hr, u, hs, rfl⟩ := copyOne_store h
  exact ⟨hr, store_leaves hwf hs⟩

/-- A COPY of one word that is ready completes (41_copy.md R90). -/
theorem copyOne_completes {a : Args} {s : State} (h : ReadyOne a s) :
    ∃ t, copyOne a s = .ok t := by
  obtain ⟨u, hu⟩ := store_completes a (srcVal a s) s (srcEvents a s) h.2.2.2
  exact ⟨nextPc a.dst u, by simp [copyOne, (sourceValue_ok a s _).mpr ⟨h.2.2.1, rfl⟩, hu]⟩

/-- Every ALU operation is `execAlu` over its operands: the source value, and for a two-operand
operation the destination operand. -/
theorem exec_aluInstr (op : AluOp) (a : Args) (s : State) :
    ∃ operate : Args → State → Except Fault (AluOut × State),
      exec (aluInstr op a) s = execAlu operate a s ∧
      ∀ p, operate a s = .ok p ↔ SourceReadable a s ∧ (twoOperand op = true → DestReadable a s) ∧
        p = (aluOut op s.signedMode s.ovf (dstVal a s) (srcVal a s),
          logged s (srcEvents a s ++ if twoOperand op then dstEvents a s else [])) := by
  cases op
  case inv => exact ⟨_, rfl, fun p => by simp [unary_ok, aluOut, twoOperand]⟩
  case and => exact ⟨_, rfl, fun p => by simp [binary_ok, aluOut, twoOperand]⟩
  case or => exact ⟨_, rfl, fun p => by simp [binary_ok, aluOut, twoOperand]⟩
  case xor => exact ⟨_, rfl, fun p => by simp [binary_ok, aluOut, twoOperand]⟩
  case neg => exact ⟨_, rfl, fun p => by simp [unary_ok, aluOut, twoOperand]⟩
  case shl => exact ⟨_, rfl, fun p => by simp [binary_ok, aluOut, twoOperand]⟩
  case shr => exact ⟨_, rfl, fun p => by simp [binary_ok, aluOut, twoOperand]⟩
  case swap => exact ⟨_, rfl, fun p => by simp [unary_ok, aluOut, twoOperand]⟩
  case zeroLsb => exact ⟨_, rfl, fun p => by simp [unary_ok, aluOut, twoOperand]⟩
  case zeroMsb => exact ⟨_, rfl, fun p => by simp [unary_ok, aluOut, twoOperand]⟩
  case add => exact ⟨_, rfl, fun p => by simp [binary_ok, aluOut, twoOperand]⟩
  case sub => exact ⟨_, rfl, fun p => by simp [binary_ok, aluOut, twoOperand]⟩
  case mul => exact ⟨_, rfl, fun p => by simp [binary_ok, aluOut, twoOperand]⟩
  case div => exact ⟨_, rfl, fun p => by simp [binary_ok, aluOut, twoOperand]⟩
  case page => exact ⟨_, rfl, fun p => by simp [unary_ok, aluOut, twoOperand]⟩
  case addOvf => exact ⟨_, rfl, fun p => by simp [unary_ok, aluOut, twoOperand]⟩

end Sys2Proof.Machine
end

