-- ==== Sys2Proof/Laws/Copy.lean ====
section
/-! SUPPORT. What a COPY of non-zero width, and COPY as a whole, can do. -/

namespace Sys2Proof.Machine

open Sys2Proof.Safety

/-- The source read at an offset completes with a value and, where it is a banked read, one more event
in the record. -/
theorem sourceAt_ok {k : Word} {a : Args} {s : State} {p : Word × State}
    (h : sourceAt k a s = .ok p) :
    ∃ evs, p.2 = logged s evs ∧ (s.fromSpace = .localMem → evs = []) := by
  unfold sourceAt at h
  cases hs : a.src with
  | mem r =>
    simp only [hs, readData_ok] at h
    obtain ⟨-, rfl⟩ := h
    exact ⟨_, rfl, fun hl => by simp [hl, readEvents]⟩
  | pc | val | reg r =>
    simp only [hs, Except.ok.injEq] at h
    exact ⟨[], by simp [← h], fun _ => rfl⟩

/-- What a part of a wide COPY leaves alone, whatever its arguments. -/
structure CopyKeeps (a : Args) (s t : State) : Prop where
  flags : t.flags = s.flags
  ovf : t.ovf = s.ovf
  cfg : t.cfg = s.cfg
  cr : a.dst ≠ .cr → t.cr = s.cr
  crMasked : t.cr = s.cr ∨ t.cr &&& 0xFC00#16 = 0#16
  pc : a.dst ≠ .pc → t.pc = s.pc
  banked : s.banked <+: t.banked
  noBanked : s.fromSpace = .localMem → s.toSpace = .localMem → t.banked = s.banked
  canonical : Memory.wf s.mem → Memory.wf t.mem
  cells : (∀ p ∈ s.mem, p.1 < 2 * s.cfg.localWords) → ∀ p ∈ t.mem, p.1 < 2 * s.cfg.localWords

theorem CopyKeeps.refl (a : Args) (s : State) : CopyKeeps a s s :=
  ⟨rfl, rfl, rfl, fun _ => rfl, .inl rfl, fun _ => rfl, List.prefix_rfl, fun _ _ => rfl, id, id⟩

theorem CopyKeeps.trans {a : Args} {s t u : State} (h : CopyKeeps a s t) (hc : t.cr = s.cr)
    (g : CopyKeeps a t u) : CopyKeeps a s u where
  flags := g.flags.trans h.flags
  ovf := g.ovf.trans h.ovf
  cfg := g.cfg.trans h.cfg
  cr hd := (g.cr hd).trans (h.cr hd)
  crMasked := hc ▸ g.crMasked
  pc hd := (g.pc hd).trans (h.pc hd)
  banked := h.banked.trans g.banked
  noBanked hf ht := (g.noBanked (by simpa [State.fromSpace, hc] using hf)
    (by simpa [State.toSpace, hc] using ht)).trans (h.noBanked hf ht)
  canonical hw := g.canonical (h.canonical hw)
  cells hp := by
    have := g.cells
    rw [h.cfg] at this
    exact this (h.cells hp)

theorem mask_reserved (v : Word) : v &&& crMask &&& 0xFC00#16 = 0#16 := by
  rw [BitVec.and_assoc]
  exact BitVec.and_zero

/-- The cells of a word at an implemented address are below twice LOCAL_WORDS. -/
theorem writeWord_cells {s : State} {m : Memory} {a v : Word} (hi : s.implemented a = true)
    (h : ∀ p ∈ m, p.1 < 2 * s.cfg.localWords) :
    ∀ p ∈ writeWord m a v, p.1 < 2 * s.cfg.localWords := by
  intro p hp
  have ha : a.toNat < s.cfg.localWords := by simpa [State.implemented] using hi
  rcases writeWord_key hp with h1 | h1 | h1
  · omega
  · omega
  · exact h p h1

/-- A store at an offset keeps all but its destination. -/
theorem storeAt_keeps {k : Word} {a : Args} {v : Word} {s t : State}
    (h : storeAt k a.dst v s = .ok t) : CopyKeeps a s t := by
  unfold storeAt at h
  cases hd : a.dst with
  | pc =>
    simp only [hd, Except.ok.injEq] at h
    subst h
    exact ⟨rfl, rfl, rfl, fun _ => rfl, .inl rfl, fun hn => absurd hd hn, List.prefix_rfl,
      fun _ _ => rfl, id, id⟩
  | cr =>
    simp only [hd, Except.ok.injEq] at h
    subst h
    exact ⟨rfl, rfl, rfl, fun hn => absurd hd hn, .inr (mask_reserved v), fun _ => rfl,
      List.prefix_rfl, fun _ _ => rfl, id, id⟩
  | reg r =>
    simp only [hd, Except.ok.injEq] at h
    subst h
    refine ⟨by simp, by simp, by simp, by simp, by simp, by simp, by simp, by simp, by simp, by simp⟩
  | mem r =>
    simp only [hd, writeData_ok] at h
    obtain ⟨hi, rfl⟩ := h
    cases hs : s.toSpace
    · refine ⟨by simp, by simp, by simp, by simp, by simp, by simp, by simp, by simp, ?_, ?_⟩
      · intro hw
        simpa using writeWord_wf hw _ _
      · intro hp
        simpa using writeWord_cells (hi hs) hp
    · refine ⟨by simp, by simp, by simp, by simp, by simp, by simp, by simp, ?_, by simp, by simp⟩
      intro _ ht
      simp [hs] at ht

/-- One word of a wide COPY keeps all but its destination; before the last word the control register
too. -/
theorem copyWord_keeps {a : Args} {k : Word} {last : Bool} {s t : State}
    (h : copyWord a k last s = .ok t) : CopyKeeps a s t ∧ (last = false → t.cr = s.cr) := by
  unfold copyWord at h
  cases hv : sourceAt k a s with
  | error e => simp [hv] at h
  | ok p =>
    obtain ⟨v, s1⟩ := p
    obtain ⟨evs, h1, h2⟩ := sourceAt_ok hv
    simp only at h1
    subst h1
    have hl : CopyKeeps a s (logged s evs) :=
      ⟨rfl, rfl, rfl, fun _ => rfl, .inl rfl, fun _ => rfl, by simp, fun hf _ => by simp [h2 hf], id, id⟩
    simp only [hv] at h
    split at h
    · next hm =>
      have hk := storeAt_keeps h
      refine ⟨hl.trans rfl hk, fun hf => ?_⟩
      rw [hk.cr]
      · rfl
      · intro hc
        simp [hc, Dst.isMem, hf] at hm
    · simp only [Except.ok.injEq] at h
      subst h
      exact ⟨hl, fun _ => rfl⟩

/-- A wide COPY keeps all but its destination. -/
theorem copyWords_keeps {a : Args} {n : Nat} {k : Word} {s t : State}
    (h : copyWords a n k s = .ok t) : CopyKeeps a s t := by
  induction n generalizing k s with
  | zero => exact (copyWord_keeps h).1
  | succ n ih =>
    simp only [copyWords] at h
    cases hw : copyWord a k false s with
    | error e => simp [hw] at h
    | ok u =>
      simp only [hw] at h
      obtain ⟨h1, h2⟩ := copyWord_keeps hw
      exact h1.trans (h2 rfl) (ih h)

/-- The next states of a COPY: its effect fails and only `pc` advances, or it copies one word, or it
copies `cr.W + 1` words without an increment. -/
theorem execCopy_next {a : Args} {s t : State} (h : execCopy a s = .next t) :
    (effectHolds a.eff s.flags = false ∧ t = s.advancePc) ∨
    (effectHolds a.eff s.flags = true ∧ s.copyWidth = 0#6 ∧ copyOne a s = .ok t) ∨
    (effectHolds a.eff s.flags = true ∧ s.copyWidth ≠ 0#6 ∧ s.cfg.copyWidthMode = .ascending ∧
      a.inc = false ∧ ∃ u, copyWords a s.copyWidth.toNat 0#16 s = .ok u ∧ t = nextPc a.dst u) := by
  unfold execCopy at h
  cases he : effectHolds a.eff s.flags
  · exact .inl ⟨rfl, by simpa [he, eq_comm] using h⟩
  · by_cases hw : s.copyWidth = 0#6
    · refine .inr (.inl ⟨rfl, hw, ?_⟩)
      cases hc : copyOne a s with
      | error e => simp [he, hw, hc, toOutcome] at h
      | ok u => simpa [he, hw, hc, toOutcome] using h
    · cases hm : s.cfg.copyWidthMode
      · simp [he, hw, hm] at h
      · cases hi : a.inc
        · refine .inr (.inr ⟨rfl, hw, rfl, rfl, ?_⟩)
          cases hc : copyWords a s.copyWidth.toNat 0#16 s with
          | error e => simp [he, hw, hm, hi, copyWide, hc, toOutcome] at h
          | ok u => exact ⟨u, rfl, by simpa [he, hw, hm, hi, copyWide, hc, toOutcome, eq_comm] using h⟩
        · simp [he, hw, hm, hi] at h

theorem ofNat_succ (k : Nat) : BitVec.ofNat 16 k + 1#16 = BitVec.ofNat 16 (k + 1) := by
  simp [BitVec.ofNat_add]

/-- The read of word `k` of a wide COPY completes, with the value and the record R94 gives. -/
theorem sourceAt_wide {a : Args} {s : State} (evs : List BankedEvent) {k : Nat}
    (h : WideWordReadable a s k) :
    sourceAt (BitVec.ofNat 16 k) a (logged s evs) = .ok (wideValue a s (s.banked ++ evs) k,
      logged s (evs ++ wideReads a s (s.banked ++ evs) k)) := by
  unfold sourceAt wideValue wideReads
  cases hs : a.src with
  | mem q =>
    simp only [logged_fromSpace, logged_reg]
    rw [readData_ok]
    refine ⟨fun hf => by simpa using h q hs hf, ?_⟩
    cases s.fromSpace <;> simp [valueAt, readEvents]
  | pc | val | reg r => simp [srcVal, hs]

/-- Word `k` of a wide COPY that does not write local memory. -/
theorem copyWord_wide {a : Args} {s : State} {k : Nat} {last : Bool}
    (hr : WideWordReadable a s k)
    (hd : ∀ r, a.dst = .mem r → s.toSpace = .banked) :
    copyWord a (BitVec.ofNat 16 k) last (logged s (wideEvents a s k)) =
      if a.dst.isMem || !last then .ok (logged s (wideEvents a s (k + 1)))
      else storeAt 0#16 a.dst (wideWord a s k) (logged s (wideEvents a s (k + 1))) := by
  unfold copyWord
  rw [sourceAt_wide _ hr]
  cases h : a.dst with
  | mem r =>
    simp only [Dst.isMem, Bool.true_or, if_true, storeAt]
    rw [writeData_ok]
    simp [hd r h, logged_record, wideEvents, wideWrites, h]
  | pc | cr | reg r =>
    cases last <;> simp [Dst.isMem, storeAt, wideEvents, wideWrites, h, wideWord]

/-- A wide COPY that does not write local memory, from word `k` on: it records its banked accesses, and a
destination that is no `mem` argument receives the last word. -/
theorem copyWords_wide {a : Args} {s : State} (hr : WideReadable a s)
    (hd : ∀ r, a.dst = .mem r → s.toSpace = .banked) (n k : Nat) (hk : k + n = s.copyWidth.toNat) :
    copyWords a n (BitVec.ofNat 16 k) (logged s (wideEvents a s k)) =
      if a.dst.isMem then .ok (logged s (wideEvents a s (s.copyWidth.toNat + 1)))
      else storeAt 0#16 a.dst (wideWord a s s.copyWidth.toNat)
        (logged s (wideEvents a s (s.copyWidth.toNat + 1))) := by
  have hw (l : Bool) := copyWord_wide (last := l) (hr k (by omega)) hd
  induction n generalizing k with
  | zero =>
    obtain rfl : k = s.copyWidth.toNat := by omega
    simp only [copyWords]
    rw [hw]
    simp
  | succ n ih =>
    have hn := ih (k + 1) (by omega)
      (fun l => copyWord_wide (hr (k + 1) (by omega)) hd)
    simp only [copyWords]
    rw [← hn, hw, ofNat_succ]
    simp

/-- The same from the first word on. -/
theorem copyWords_wide_all {a : Args} {s : State} (hr : WideReadable a s)
    (hd : ∀ r, a.dst = .mem r → s.toSpace = .banked) :
    copyWords a s.copyWidth.toNat 0#16 s =
      if a.dst.isMem then .ok (logged s (wideEvents a s (s.copyWidth.toNat + 1)))
      else storeAt 0#16 a.dst (wideWord a s s.copyWidth.toNat)
        (logged s (wideEvents a s (s.copyWidth.toNat + 1))) := by
  have h := copyWords_wide hr hd s.copyWidth.toNat 0 (by omega)
  rwa [show logged s (wideEvents a s 0) = s from logged_nil s] at h

/-- One word of a wide COPY moves no register, but that a destination register receives the last word. -/
theorem copyWord_reg {a : Args} {k : Word} {last : Bool} {s t : State}
    (h : copyWord a k last s = .ok t) (hl : a.dst.isMem = true ∨ last = false) (r : Reg) :
    t.reg r = s.reg r := by
  unfold copyWord at h
  cases hs : sourceAt k a s with
  | error f => simp [hs] at h
  | ok p =>
    obtain ⟨v, u⟩ := p
    obtain ⟨evs, h5, -⟩ := sourceAt_ok hs
    simp only at h5
    subst h5
    simp only [hs] at h
    cases hd : a.dst with
    | mem q =>
      simp only [hd, Dst.isMem, Bool.true_or, if_true, storeAt, writeData_ok] at h
      obtain ⟨-, rfl⟩ := h
      split <;> simp
    | pc | cr | reg q =>
      simp only [hd, Dst.isMem, Bool.false_eq_true, false_or] at hl
      simp only [hd, Dst.isMem, hl, Bool.or_self, Bool.false_eq_true, if_false, Except.ok.injEq] at h
      simp [← h]

/-- One word of a wide COPY completes where its read and its write are implemented. -/
theorem copyWord_completes {a : Args} {s u : State} {k : Nat} {last : Bool}
    (hcr : u.cr = s.cr) (hcfg : u.cfg = s.cfg) (hreg : ∀ r, u.reg r = s.reg r)
    (hr : WideWordReadable a s k) (hw : WideWordStorable a s k) :
    ∃ t, copyWord a (BitVec.ofNat 16 k) last u = .ok t := by
  have e1 : u.fromSpace = s.fromSpace := by simp [State.fromSpace, hcr]
  have e2 : u.toSpace = s.toSpace := by simp [State.toSpace, hcr]
  have e3 (w) : u.implemented w = s.implemented w := by simp [State.implemented, hcfg]
  have hs : ∃ p, sourceAt (BitVec.ofNat 16 k) a u = .ok p := by
    unfold sourceAt
    cases h : a.src with
    | mem q =>
      refine ⟨_, (readData_ok _ _ _ _).mpr ⟨fun hf => ?_, rfl⟩⟩
      rw [e3, hreg]
      exact hr q h (e1 ▸ hf)
    | pc | val | reg q => exact ⟨_, rfl⟩
  obtain ⟨⟨v, u'⟩, hs⟩ := hs
  obtain ⟨evs, h5, -⟩ := sourceAt_ok hs
  simp only at h5
  subst h5
  unfold copyWord
  rw [hs]
  simp only
  split
  · unfold storeAt
    cases h : a.dst with
    | mem r =>
      refine ⟨_, (writeData_ok _ _ _ _ _).mpr ⟨fun hf => ?_, rfl⟩⟩
      simp only [logged_implemented, logged_reg, logged_toSpace] at hf ⊢
      rw [e3, hreg]
      exact hw r h (e2 ▸ hf)
    | pc | cr | reg q => exact ⟨_, rfl⟩
  · exact ⟨_, rfl⟩

end Sys2Proof.Machine
end

