-- ==== Sys2Proof/Laws/Encoding.lean ====
section
/-! SUPPORT. The fields of an encoded word, and the codes of effects, destinations and sources. -/

namespace Sys2Proof

/-- The five fields every word has: class bit, effect, destination, source and the low seven bits. -/
theorem fields_of_word (c : BitVec 1) (e : BitVec 2) (d s : BitVec 3) (l : BitVec 7) :
    (c ++ e ++ d ++ s ++ l : BitVec 16).extractLsb' 15 1 = c ∧
    (c ++ e ++ d ++ s ++ l : BitVec 16).extractLsb' 13 2 = e ∧
    (c ++ e ++ d ++ s ++ l : BitVec 16).extractLsb' 10 3 = d ∧
    (c ++ e ++ d ++ s ++ l : BitVec 16).extractLsb' 7 3 = s ∧
    (c ++ e ++ d ++ s ++ l : BitVec 16).extractLsb' 0 7 = l := by
  refine ⟨?_, ?_, ?_, ?_, ?_⟩ <;> apply BitVec.eq_of_getLsbD_eq <;> intro i hi <;>
    simp only [BitVec.getLsbD_extractLsb', BitVec.getLsbD_append] <;> interval_cases i <;> simp

/-- A word is its five fields. -/
theorem word_of_fields (w : Word) :
    (w.extractLsb' 15 1 ++ w.extractLsb' 13 2 ++ w.extractLsb' 10 3 ++ w.extractLsb' 7 3 ++
      w.extractLsb' 0 7 : BitVec 16) = w := by
  apply BitVec.eq_of_getLsbD_eq
  intro i hi
  simp only [BitVec.getLsbD_extractLsb', BitVec.getLsbD_append]
  interval_cases i <;> simp

/-- The effect of a word has the code that stands at w[14:13]. -/
theorem effectOf_bits (w : Word) : (effectOf w).bits = w.extractLsb' 13 2 := by
  unfold effectOf
  generalize w.extractLsb' 13 2 = x
  revert x
  decide

/-- The destination of a word has the code that stands at w[12:10]. -/
theorem dstOf_bits (w : Word) : (dstOf w).bits = w.extractLsb' 10 3 := by
  unfold dstOf
  generalize w.extractLsb' 10 3 = x
  revert x
  decide

/-- The source of a word has the code that stands at w[9:7]. -/
theorem srcOf_bits (w : Word) : (srcOf w).bits = w.extractLsb' 7 3 := by
  unfold srcOf
  generalize w.extractLsb' 7 3 = x
  revert x
  decide

/-- Two effects with one code are equal. -/
theorem Effect.bits_inj {a b : Effect} (h : a.bits = b.bits) : a = b := by
  cases a <;> cases b <;> first | rfl | exact absurd h (by decide)

/-- Two destinations with one code are equal. -/
theorem Dst.bits_inj {a b : Dst} (h : a.bits = b.bits) : a = b := by
  rcases a with _ | ⟨_ | _ | _⟩ | _ | ⟨_ | _ | _⟩ <;> rcases b with _ | ⟨_ | _ | _⟩ | _ | ⟨_ | _ | _⟩ <;>
    first | rfl | exact absurd h (by decide)

/-- Two sources with one code are equal. -/
theorem Src.bits_inj {a b : Src} (h : a.bits = b.bits) : a = b := by
  rcases a with _ | ⟨_ | _ | _⟩ | _ | ⟨_ | _ | _⟩ <;> rcases b with _ | ⟨_ | _ | _⟩ | _ | ⟨_ | _ | _⟩ <;>
    first | rfl | exact absurd h (by decide)

/-- The fixed bits of an ALU word (30_encoding.md R51, R60). -/
theorem encodeAlu_fixed (op : BitVec 4) (a : Args) :
    encodeAlu op a &&& 0x800F#16 = 0x800#12 ++ op := by
  have h (c : BitVec 1) (e : BitVec 2) (d s m : BitVec 3) (hc : c = 1#1) :
      (c ++ e ++ d ++ s ++ m ++ op : BitVec 16) &&& 0x800F#16 = 0x800#12 ++ op := by
    subst hc
    apply BitVec.eq_of_getLsbD_eq
    intro i hi
    simp only [BitVec.getLsbD_and, BitVec.getLsbD_append]
    interval_cases i <;> simp
  exact h _ _ _ _ _ rfl

/-- The fixed bit of a COPY word (30_encoding.md R51). -/
theorem encodeCopy_fixed (a : Args) : encodeCopy a &&& 0x8000#16 = 0#16 := by
  have h (c : BitVec 1) (e : BitVec 2) (d s : BitVec 3) (l : BitVec 7) (hc : c = 0#1) :
      (c ++ e ++ d ++ s ++ l : BitVec 16) &&& 0x8000#16 = 0#16 := by
    subst hc
    apply BitVec.eq_of_getLsbD_eq
    intro i hi
    simp only [BitVec.getLsbD_and, BitVec.getLsbD_append]
    interval_cases i <;> simp
  exact h _ _ _ _ _ rfl

end Sys2Proof
end

