-- ==== Sys2Proof/Laws/PerInstr.lean ====
section
/-! SUPPORT. Statements about every instruction, one lemma per constructor of `Instr`. -/

namespace Sys2Proof.Laws

/-- The mask of the instruction's row of spec/opcode_table.json. -/
def TableRow.mask : Instr → Word
  | .halt _ => 0x9FFF#16
  | .copy _ => 0x8000#16
  | .inv _ => 0x800F#16
  | .and _ => 0x800F#16
  | .or _ => 0x800F#16
  | .xor _ => 0x800F#16
  | .neg _ => 0x800F#16
  | .shl _ => 0x800F#16
  | .shr _ => 0x800F#16
  | .swap _ => 0x800F#16
  | .zeroLsb _ => 0x800F#16
  | .zeroMsb _ => 0x800F#16
  | .add _ => 0x800F#16
  | .sub _ => 0x800F#16
  | .mul _ => 0x800F#16
  | .div _ => 0x800F#16
  | .page _ => 0x800F#16
  | .addOvf _ => 0x800F#16

/-- The match of the instruction's row of spec/opcode_table.json. -/
def TableRow.pattern : Instr → Word
  | .halt _ => 0x0000#16
  | .copy _ => 0x0000#16
  | .inv _ => 0x8000#16
  | .and _ => 0x8001#16
  | .or _ => 0x8002#16
  | .xor _ => 0x8003#16
  | .neg _ => 0x8004#16
  | .shl _ => 0x8005#16
  | .shr _ => 0x8006#16
  | .swap _ => 0x8007#16
  | .zeroLsb _ => 0x8008#16
  | .zeroMsb _ => 0x8009#16
  | .add _ => 0x800A#16
  | .sub _ => 0x800B#16
  | .mul _ => 0x800C#16
  | .div _ => 0x800D#16
  | .page _ => 0x800E#16
  | .addOvf _ => 0x800F#16

/-- The word of the instruction matches its row of the opcode table: the word under the row's mask is
the row's match (30_encoding.md, the opcode map). -/
def TableRow.Statement (i : Instr) : Prop :=
  encodeWord i &&& TableRow.mask i = TableRow.pattern i

theorem TableRow.halt (eff : Effect) : TableRow.Statement (.halt eff) := by
  cases eff <;> rfl

theorem TableRow.copy (a : Args) : TableRow.Statement (.copy a) := encodeCopy_fixed a

theorem TableRow.inv (a : Args) : TableRow.Statement (.inv a) := encodeAlu_fixed 0x0 a

theorem TableRow.and (a : Args) : TableRow.Statement (.and a) := encodeAlu_fixed 0x1 a

theorem TableRow.or (a : Args) : TableRow.Statement (.or a) := encodeAlu_fixed 0x2 a

theorem TableRow.xor (a : Args) : TableRow.Statement (.xor a) := encodeAlu_fixed 0x3 a

theorem TableRow.neg (a : Args) : TableRow.Statement (.neg a) := encodeAlu_fixed 0x4 a

theorem TableRow.shl (a : Args) : TableRow.Statement (.shl a) := encodeAlu_fixed 0x5 a

theorem TableRow.shr (a : Args) : TableRow.Statement (.shr a) := encodeAlu_fixed 0x6 a

theorem TableRow.swap (a : Args) : TableRow.Statement (.swap a) := encodeAlu_fixed 0x7 a

theorem TableRow.zeroLsb (a : Args) : TableRow.Statement (.zeroLsb a) := encodeAlu_fixed 0x8 a

theorem TableRow.zeroMsb (a : Args) : TableRow.Statement (.zeroMsb a) := encodeAlu_fixed 0x9 a

theorem TableRow.add (a : Args) : TableRow.Statement (.add a) := encodeAlu_fixed 0xA a

theorem TableRow.sub (a : Args) : TableRow.Statement (.sub a) := encodeAlu_fixed 0xB a

theorem TableRow.mul (a : Args) : TableRow.Statement (.mul a) := encodeAlu_fixed 0xC a

theorem TableRow.div (a : Args) : TableRow.Statement (.div a) := encodeAlu_fixed 0xD a

theorem TableRow.page (a : Args) : TableRow.Statement (.page a) := encodeAlu_fixed 0xE a

theorem TableRow.addOvf (a : Args) : TableRow.Statement (.addOvf a) := encodeAlu_fixed 0xF a

end Sys2Proof.Laws
end

