-- ==== Sys2Proof/Laws/Step.lean ====
section
/-! SUPPORT. What a step can do, and the three shapes of an instruction. -/

namespace Sys2Proof.Machine

open Sys2Proof.Safety

/-- A step that answers a next state left a halted processor alone, or ran the fetched instruction. -/
theorem step_next {s t : State} (h : step s = .next t) :
    (s.halted = true ∧ t = s) ∨
    (s.halted = false ∧ s.implemented s.pc = true ∧
      ∃ i, decodeWord s.cfg.classBit (s.word s.pc) = some i ∧ exec i s = .next t) := by
  unfold step at h
  cases hh : s.halted
  · refine .inr ⟨rfl, ?_⟩
    by_cases hi : s.implemented s.pc = true
    · cases hd : decodeWord s.cfg.classBit (s.word s.pc) with
      | none => simp [hh, fetchWord, hi, hd] at h
      | some i => exact ⟨hi, i, rfl, by simpa [hh, fetchWord, hi, hd] using h⟩
    · simp [hh, fetchWord, hi] at h
  · exact .inl ⟨rfl, by simpa [hh, eq_comm] using h⟩

/-- An instruction is a HALT, a COPY or one of the sixteen ALU instructions. -/
theorem instr_shapes (i : Instr) :
    (∃ e, i = .halt e) ∨ (∃ a, i = .copy a) ∨ ∃ op a, i = aluInstr op a := by
  cases i
  case halt e => exact .inl ⟨e, rfl⟩
  case copy a => exact .inr (.inl ⟨a, rfl⟩)
  case inv a => exact .inr (.inr ⟨.inv, a, rfl⟩)
  case and a => exact .inr (.inr ⟨.and, a, rfl⟩)
  case or a => exact .inr (.inr ⟨.or, a, rfl⟩)
  case xor a => exact .inr (.inr ⟨.xor, a, rfl⟩)
  case neg a => exact .inr (.inr ⟨.neg, a, rfl⟩)
  case shl a => exact .inr (.inr ⟨.shl, a, rfl⟩)
  case shr a => exact .inr (.inr ⟨.shr, a, rfl⟩)
  case swap a => exact .inr (.inr ⟨.swap, a, rfl⟩)
  case zeroLsb a => exact .inr (.inr ⟨.zeroLsb, a, rfl⟩)
  case zeroMsb a => exact .inr (.inr ⟨.zeroMsb, a, rfl⟩)
  case add a => exact .inr (.inr ⟨.add, a, rfl⟩)
  case sub a => exact .inr (.inr ⟨.sub, a, rfl⟩)
  case mul a => exact .inr (.inr ⟨.mul, a, rfl⟩)
  case div a => exact .inr (.inr ⟨.div, a, rfl⟩)
  case page a => exact .inr (.inr ⟨.page, a, rfl⟩)
  case addOvf a => exact .inr (.inr ⟨.addOvf, a, rfl⟩)

@[simp] theorem args_aluInstr (op : AluOp) (a : Args) : args? (aluInstr op a) = some a := by
  cases op <;> rfl

@[simp] theorem effect_aluInstr (op : AluOp) (a : Args) : effect (aluInstr op a) = a.eff := by
  cases op <;> rfl

@[simp] theorem isAlu_aluInstr (op : AluOp) (a : Args) : isAlu (aluInstr op a) = true := by
  cases op <;> rfl

@[simp] theorem isCopy_aluInstr (op : AluOp) (a : Args) : isCopy (aluInstr op a) = false := by
  cases op <;> rfl

@[simp] theorem isHalt_aluInstr (op : AluOp) (a : Args) : isHalt (aluInstr op a) = false := by
  cases op <;> rfl

end Sys2Proof.Machine
end

