-- ==== Sys2Proof/Tests/Slice0.lean ====
section
/-! SUPPORT. The model's own tests. Expected results are those of 95_test_vectors.md (the row's id in the
comment) or are worked by hand from the rules. Then, for every statement with hypotheses, a state and
operands that meet them. -/

namespace Sys2Proof.Tests

open Sys2Proof.Machine Sys2Proof.Safety

/-! ### Ill-formed instructions are refused -/

theorem test_wf_refuses_copy_immediate_too_large :
    (Instr.copy ⟨.always, .reg .r1, .val, false, 64#16⟩).wf = false := by decide
theorem test_wf_refuses_negative_offset_of_mem_source :
    (Instr.copy ⟨.always, .reg .r1, .mem .r1, false, 0xFFFF#16⟩).wf = false := by decide
theorem test_wf_refuses_alu_immediate_too_small :
    (Instr.add ⟨.always, .mem .r1, .val, false, 0xFFFD#16⟩).wf = false := by decide
theorem test_wf_refuses_increment_without_mem :
    (Instr.copy ⟨.always, .reg .r1, .reg .r2, true, 0#16⟩).wf = false := by decide
theorem test_wf_refuses_copy_in_halt_form :
    (Instr.copy ⟨.always, .pc, .pc, false, 0#16⟩).wf = false := by decide

/-! ### Decoding: words written out from the encoding (95_test_vectors.md section 2) -/

theorem test_decode_halt : decodeWord .bit15 0b0110000000000000#16 = some (.halt .always) := by decide
theorem test_decode_copy : decodeWord .bit15 0b0111011001000000#16 =
    some (.copy ⟨.always, .reg .r1, .val, false, 0xFFC0#16⟩) := by decide
theorem test_decode_copy_unsigned_offset : decodeWord .bit15 0b0111100010111111#16 =
    some (.copy ⟨.always, .reg .r2, .mem .r1, false, 63#16⟩) := by decide
theorem test_decode_no_word : decode .bit15 [] = .error .noWord := by rfl
theorem test_decode_unknown_class : decode .notAdopted [0x8000#16] = .error (.unknownClass 0x8000#16) ∧
    decode .notAdopted [0x6000#16] = .ok (.halt .always, []) := ⟨rfl, rfl⟩
theorem test_decode_inv : decodeWord .bit15 0b1111011100000000#16 =
    some (.inv ⟨.always, .reg .r1, .reg .r2, false, 0#16⟩) := by decide
theorem test_decode_and : decodeWord .bit15 0b1111011100000001#16 =
    some (.and ⟨.always, .reg .r1, .reg .r2, false, 0#16⟩) := by decide
theorem test_decode_or : decodeWord .bit15 0b1111011100000010#16 =
    some (.or ⟨.always, .reg .r1, .reg .r2, false, 0#16⟩) := by decide
theorem test_decode_xor : decodeWord .bit15 0b1111011100000011#16 =
    some (.xor ⟨.always, .reg .r1, .reg .r2, false, 0#16⟩) := by decide
theorem test_decode_neg : decodeWord .bit15 0b1111011100000100#16 =
    some (.neg ⟨.always, .reg .r1, .reg .r2, false, 0#16⟩) := by decide
theorem test_decode_shl : decodeWord .bit15 0b1111011100000101#16 =
    some (.shl ⟨.always, .reg .r1, .reg .r2, false, 0#16⟩) := by decide
theorem test_decode_shr : decodeWord .bit15 0b1111011100000110#16 =
    some (.shr ⟨.always, .reg .r1, .reg .r2, false, 0#16⟩) := by decide
theorem test_decode_swap : decodeWord .bit15 0b1111011100000111#16 =
    some (.swap ⟨.always, .reg .r1, .reg .r2, false, 0#16⟩) := by decide
theorem test_decode_zeroLsb : decodeWord .bit15 0b1111011100001000#16 =
    some (.zeroLsb ⟨.always, .reg .r1, .reg .r2, false, 0#16⟩) := by decide
theorem test_decode_zeroMsb : decodeWord .bit15 0b1111011100001001#16 =
    some (.zeroMsb ⟨.always, .reg .r1, .reg .r2, false, 0#16⟩) := by decide
theorem test_decode_add : decodeWord .bit15 0b1111011100001010#16 =
    some (.add ⟨.always, .reg .r1, .reg .r2, false, 0#16⟩) := by decide
theorem test_decode_sub : decodeWord .bit15 0b1111011100001011#16 =
    some (.sub ⟨.always, .reg .r1, .reg .r2, false, 0#16⟩) := by decide
theorem test_decode_mul : decodeWord .bit15 0b1111011100001100#16 =
    some (.mul ⟨.always, .reg .r1, .reg .r2, false, 0#16⟩) := by decide
theorem test_decode_div : decodeWord .bit15 0b1111011100001101#16 =
    some (.div ⟨.always, .reg .r1, .reg .r2, false, 0#16⟩) := by decide
theorem test_decode_page : decodeWord .bit15 0b1111011100001110#16 =
    some (.page ⟨.always, .reg .r1, .reg .r2, false, 0#16⟩) := by decide
theorem test_decode_addOvf : decodeWord .bit15 0b1111011100001111#16 =
    some (.addOvf ⟨.always, .reg .r1, .reg .r2, false, 0#16⟩) := by decide

/-! ### The assembler -/

theorem test_assemble_spellings : assemble ["halt", "halt 0.eff", "copy 0.reg:-2 0.reg 1.eff",
    "copy push 0.reg:2 1.mem", "compute 1.op 0.imm 4.reg", "compute F.op 3.reg:-1 3.reg"] =
    some [0x6000#16, 0x0000#16, 0x207E#16, 0x6442#16, 0xF201#16, 0xFFFF#16] := by decide
theorem test_assemble_refuses_immediate_out_of_range : assemble ["copy 64.imm 1.reg"] = none := by
  decide
theorem test_assemble_refuses_increment_without_mem : assemble ["copy push 1.imm 1.reg"] = none := by
  decide

/-! ### One step -/

/-- The value of a field after an outcome that is a next state. -/
def after {α : Type} (o : Host.Outcome State Fault Refusal) (f : State → α) : Option α :=
  match o with
  | .next t => some (f t)
  | .fault _ => none
  | .refused _ => none

/-- A state at `pc` 0x0010 with r1, r2 and the control register given and one word of memory set. -/
def at10 (x1 x2 cr : Word) (addr value : Word) : State :=
  { State.reset with
    pc := 0x0010#16, x1 := x1, x2 := x2, cr := cr, mem := writeWord [] addr value }

/-- The result, the overflow register and the flags Z N C V of `compute <op>.op 2.reg 1.reg`
(95_test_vectors.md section 4). -/
def aluRow (op : Nat) (cr dv sv ovf : Word) : Option (Word × Word × Flags) :=
  after (step ({ at10 dv sv cr 0 0 with ovf := ovf }.withFetchWord 16 (0xF700 + op)))
    (fun t => (t.x1, t.ovf, t.flags))

/-- A2. -/
theorem test_inv_all_ones : aluRow 0 0x0000#16 0x1111#16 0xFFFF#16 0x0005#16 =
    some (0x0000#16, 0x0000#16, ⟨true, false, false, false⟩) := by decide
/-- A4. -/
theorem test_and_masks : aluRow 1 0x0000#16 0xF0F0#16 0x3C3C#16 0x0005#16 =
    some (0x3030#16, 0x0000#16, ⟨false, false, false, false⟩) := by decide
/-- A7. -/
theorem test_or_joins : aluRow 2 0x0000#16 0xF0F0#16 0x0F0F#16 0x0005#16 =
    some (0xFFFF#16, 0x0000#16, ⟨false, true, false, false⟩) := by decide
/-- A10. -/
theorem test_xor_equal_operands : aluRow 3 0x0000#16 0xFFFF#16 0xFFFF#16 0x0005#16 =
    some (0x0000#16, 0x0000#16, ⟨true, false, false, false⟩) := by decide
/-- A13. -/
theorem test_neg_most_negative : aluRow 4 0x0000#16 0x1111#16 0x8000#16 0x0005#16 =
    some (0x8000#16, 0x0000#16, ⟨false, true, false, false⟩) := by decide
/-- A16. -/
theorem test_shl_by_four : aluRow 5 0x0000#16 0x1234#16 0x0004#16 0x0000#16 =
    some (0x2340#16, 0x0001#16, ⟨false, false, true, true⟩) := by decide
/-- A22. -/
theorem test_shl_by_twenty : aluRow 5 0x0000#16 0x1234#16 0x0014#16 0x0000#16 =
    some (0x0000#16, 0x2340#16, ⟨true, false, true, true⟩) := by decide
/-- A27. -/
theorem test_shr_signed : aluRow 6 0x0100#16 0x8001#16 0x0001#16 0x0000#16 =
    some (0xC000#16, 0x0001#16, ⟨false, true, true, true⟩) := by decide
/-- A37. -/
theorem test_shr_unsigned_above_width : aluRow 6 0x0000#16 0x8000#16 0x0011#16 0x0000#16 =
    some (0x0000#16, 0x8000#16, ⟨true, false, true, true⟩) := by decide
/-- A42. -/
theorem test_swap_bytes : aluRow 7 0x0000#16 0x1111#16 0x00FF#16 0x0005#16 =
    some (0xFF00#16, 0x0000#16, ⟨false, true, false, false⟩) := by decide
/-- A44. -/
theorem test_zero_lsb : aluRow 8 0x0000#16 0x1111#16 0x1234#16 0x0005#16 =
    some (0x1200#16, 0x0000#16, ⟨false, false, false, false⟩) := by decide
/-- A47. -/
theorem test_zero_msb : aluRow 9 0x0000#16 0x1111#16 0xFF00#16 0x0005#16 =
    some (0x0000#16, 0x0000#16, ⟨true, false, false, false⟩) := by decide
/-- A49. -/
theorem test_add_unsigned_carry : aluRow 10 0x0000#16 0xFFFF#16 0x0001#16 0x0000#16 =
    some (0x0000#16, 0x0001#16, ⟨true, false, true, false⟩) := by decide
/-- A53. -/
theorem test_add_signed_both : aluRow 10 0x0100#16 0x8000#16 0x8000#16 0x0000#16 =
    some (0x0000#16, 0xFFFF#16, ⟨true, false, true, true⟩) := by decide
/-- A63. -/
theorem test_sub_unsigned_borrow : aluRow 11 0x0000#16 0x7FFF#16 0xFFFF#16 0x0000#16 =
    some (0x8000#16, 0xFFFF#16, ⟨false, true, true, true⟩) := by decide
/-- A60. -/
theorem test_sub_signed_overflow : aluRow 11 0x0100#16 0x8000#16 0x0001#16 0x0000#16 =
    some (0x7FFF#16, 0xFFFF#16, ⟨false, false, false, true⟩) := by decide
/-- A69. -/
theorem test_mul_unsigned : aluRow 12 0x0000#16 0xFFFE#16 0x0003#16 0x0000#16 =
    some (0xFFFA#16, 0x0002#16, ⟨false, true, true, true⟩) := by decide
/-- A74. -/
theorem test_mul_signed : aluRow 12 0x0100#16 0x8000#16 0xFFFF#16 0x0000#16 =
    some (0x8000#16, 0x0000#16, ⟨false, true, true, true⟩) := by decide
/-- A79. -/
theorem test_div_signed_truncates : aluRow 13 0x0100#16 0x0007#16 0xFFFE#16 0x0000#16 =
    some (0xFFFD#16, 0x0001#16, ⟨false, true, false, false⟩) := by decide
/-- A83. -/
theorem test_div_signed_overflow : aluRow 13 0x0100#16 0x8000#16 0xFFFF#16 0x0000#16 =
    some (0x8000#16, 0x0000#16, ⟨false, true, false, true⟩) := by decide
/-- A91. -/
theorem test_page_last : aluRow 14 0x0000#16 0x1111#16 0xFFFF#16 0x0005#16 =
    some (0xFFC0#16, 0x0000#16, ⟨false, true, false, false⟩) := by decide
/-- A93. -/
theorem test_add_ovf_wraps : aluRow 15 0x0000#16 0x1111#16 0xFFFF#16 0x0001#16 =
    some (0x0000#16, 0x0000#16, ⟨true, false, false, false⟩) := by decide
/-- Division by zero runs on; carry and overflow are 0 (42_alu.md R102; log entry 9). -/
theorem test_div_by_zero_runs :
    after (step ((at10 7#16 0#16 0#16 0#16 0#16).withFetchWord 16 0xF70D))
      (fun t => (t.pc, t.flags.c, t.flags.v)) = some (0x0011#16, false, false) := by rfl
/-- V31: HALT whatever the copy width. -/
theorem test_halt_with_width :
    after (step ((at10 0#16 0#16 0x0004#16 0#16 0#16).withFetchWord 16 0x6000)) (fun t => (t.pc, t.cr)) =
      some (0x0010#16, 0x0204#16) := by decide
/-- V27: `halt 0.eff` with Z = 0 is skipped. -/
theorem test_halt_skipped :
    after (step ((at10 0#16 0#16 0#16 0#16 0#16).withFetchWord 16 0x0000)) (fun t => (t.pc, t.cr)) =
      some (0x0011#16, 0x0000#16) := by decide
/-- V9: pop into the same register, the store wins. -/
theorem test_copy_pop_into_its_register :
    after (step ((at10 0x0100#16 0#16 0#16 0x0100#16 0x5555#16).withFetchWord 16 0x74C0))
      (fun t => (t.pc, t.x1)) = some (0x0011#16, 0x5555#16) := by decide
/-- V11: duplicate the top of the stack; only the destination moves. -/
theorem test_copy_push_duplicates :
    after (step ((at10 0x0100#16 0#16 0#16 0x0100#16 0x0009#16).withFetchWord 16 0x64C0))
      (fun t => (t.x1, t.word 0x00FF#16)) = some (0x00FF#16, 0x0009#16) := by decide
/-- V18: a write of the control register keeps bits 9:0 and halts, with `pc` advanced. -/
theorem test_write_of_control_register :
    after (step ((at10 0#16 0#16 0#16 0#16 0#16).withFetchWord 16 0x727F))
      (fun t => (t.pc, t.cr, t.halted)) = some (0x0011#16, 0x03FF#16, true) := by decide
/-- V25: local to banked in one instruction; local memory stays. -/
theorem test_copy_local_to_banked :
    after (step ((at10 0x0100#16 0x0200#16 0x0001#16 0x0100#16 0x1111#16).withFetchWord 16 0x6880))
      (fun t => (t.banked, t.word 0x0200#16)) = some ([.write 0x0200#16 0x1111#16], 0#16) := by decide
/-- Two words, the second read where the first was written (41_copy.md R94, worked by hand; log entry
11). -/
theorem test_copy_wide_overlapping :
    after (step ((at10 0x0101#16 0x0100#16 0x0004#16 0x0100#16 0x5555#16).withFetchWord 16 0x6500))
      (fun t => (t.word 0x0100#16, t.word 0x0101#16, t.word 0x0102#16, t.word 0x0103#16)) =
      some (0x5555#16, 0x5555#16, 0x5555#16, 0#16) := by decide
/-- V35: the ALU word with zero low bits is INV of `pc` to `pc`. -/
theorem test_inv_pc_to_pc :
    after (step ((at10 0#16 0#16 0#16 0#16 0#16).withFetchWord 16 0xE000)) (fun t => (t.pc, t.halted)) =
      some (0xFFEF#16, false) := by decide
/-- V39: add with push reads both operands at the old address (both words are 4 here). -/
theorem test_add_push :
    after (step ({ at10 0x0100#16 0#16 0#16 0x0101#16 0x0004#16 with
        mem := writeWord (writeWord [] 0x0101#16 0x0004#16) 0x0100#16 0x0003#16 }.withFetchWord 16 0xE4DA))
      (fun t => (t.x1, t.word 0x00FF#16, t.word 0x0100#16)) =
      some (0x00FF#16, 0x0007#16, 0x0003#16) := by decide
/-- V40: page boundary of a popped word into `pc`. -/
theorem test_page_pop_to_pc :
    after (step ((at10 0x0100#16 0#16 0#16 0x0100#16 0x1234#16).withFetchWord 16 0xE0CE))
      (fun t => (t.pc, t.x1)) = some (0x1200#16, 0x0101#16) := by decide
/-- V38: an ALU instruction whose effect fails leaves flags and overflow register. -/
theorem test_sub_skipped :
    after (step ({ at10 5#16 0#16 0#16 0#16 0#16 with ovf := 7#16 }.withFetchWord 16 0xD61B))
      (fun t => (t.pc, t.x1, t.ovf)) = some (0x0011#16, 5#16, 7#16) := by decide
/-- V44: AND of the control register with 0, the boot idiom of R152. -/
theorem test_and_clears_control_register :
    after (step ((at10 0#16 0#16 0x01FF#16 0#16 0#16).withFetchWord 16 0xF201))
      (fun t => (t.cr, t.flags.z)) = some (0#16, true) := by decide
/-- A store into local memory is fetched by the next step (20_memory.md R44): 0x6620 stores 0xFFE0 at r1,
here the next instruction. -/
theorem test_store_is_fetched :
    after (step ((at10 0x0011#16 0#16 0#16 0#16 0#16).withFetchWord 16 0x6620)) fetchWord =
      some (.ok 0xFFE0#16) := by rfl
/-- The first instruction after reset runs. -/
theorem test_first_step_from_reset :
    step (State.reset.withFetchWord 16 0x763F) =
      exec (.copy ⟨.always, .reg .r1, .val, false, 63#16⟩) (State.reset.withFetchWord 16 0x763F) := by
  rfl

/-! ### The hypotheses of the statements are met -/

/-- A state with 16 implemented words of local memory. -/
def small (pc : Word) : State := { State.reset with pc := pc, cfg := { launchConfig with localWords := 16 } }

/-- `push` of the word above r2 through r1, a `mem` source and a `mem` destination. -/
def memArgs : Args := ⟨.always, .mem .r1, .mem .r2, true, 1#16⟩

/-- r1 at the lowest and r2 at the highest address: the push and the offset wrap. -/
def memState : State := at10 0x0000#16 0xFFFF#16 0#16 0#16 7#16

theorem memReady : ReadyTwo memArgs memState :=
  ⟨⟨by decide, by decide, by intro r; cases r <;> decide, by intro r; cases r <;> decide⟩,
    by intro r; cases r <;> decide⟩

/-- `compute` with source `2.reg` and destination `1.reg`. -/
def regArgs : Args := ⟨.always, .reg .r1, .reg .r2, false, 0#16⟩

theorem low_wf : Memory.wf (writeWord [] 0#16 1#16) := by decide

theorem regReady (dv sv cr : Word) : ReadyTwo regArgs (at10 dv sv cr 0#16 1#16) :=
  ⟨⟨rfl, low_wf, by intro r h; simp [regArgs] at h, by intro r h; simp [regArgs] at h⟩,
    by intro r h; simp [regArgs] at h⟩

/-- A COPY through r1 from `src`. -/
def wideArgs (d : Dst) (src : Src) : Args := ⟨.always, d, src, false, 0#16⟩

theorem witness_DecodeOfEncodeIsTheInstruction :
    (Instr.copy ⟨.ifZero, .mem .r1, .val, true, 0xFFE0#16⟩).wf = true ∧
      (Instr.add ⟨.always, .reg .r1, .mem .r2, true, 3#16⟩).wf = true ∧
      (Instr.halt .ifNegative).wf = true := by decide
theorem witness_SourceFieldFollowsItsTable :
    ((decodeWord .bit15 0x7400#16).bind args?).map Args.src = some Src.pc ∧
      ((decodeWord .bit15 0x7480#16).bind args?).map Args.src = some (Src.mem .r1) ∧
      ((decodeWord .bit15 0x7500#16).bind args?).map Args.src = some (Src.mem .r2) ∧
      ((decodeWord .bit15 0x7580#16).bind args?).map Args.src = some (Src.mem .r3) ∧
      ((decodeWord .bit15 0x7600#16).bind args?).map Args.src = some Src.val ∧
      ((decodeWord .bit15 0x7680#16).bind args?).map Args.src = some (Src.reg .r1) ∧
      ((decodeWord .bit15 0x7700#16).bind args?).map Args.src = some (Src.reg .r2) ∧
      ((decodeWord .bit15 0x7780#16).bind args?).map Args.src = some (Src.reg .r3) := by
  refine ⟨?_, ?_, ?_, ?_, ?_, ?_, ?_, ?_⟩ <;> rfl
theorem witness_DestinationFieldFollowsItsTable :
    ((decodeWord .bit15 0x6200#16).bind args?).map Args.dst = some Dst.pc ∧
      ((decodeWord .bit15 0x6600#16).bind args?).map Args.dst = some (Dst.mem .r1) ∧
      ((decodeWord .bit15 0x6A00#16).bind args?).map Args.dst = some (Dst.mem .r2) ∧
      ((decodeWord .bit15 0x6E00#16).bind args?).map Args.dst = some (Dst.mem .r3) ∧
      ((decodeWord .bit15 0x7200#16).bind args?).map Args.dst = some Dst.cr ∧
      ((decodeWord .bit15 0x7600#16).bind args?).map Args.dst = some (Dst.reg .r1) ∧
      ((decodeWord .bit15 0x7A00#16).bind args?).map Args.dst = some (Dst.reg .r2) ∧
      ((decodeWord .bit15 0x7E00#16).bind args?).map Args.dst = some (Dst.reg .r3) := by
  refine ⟨?_, ?_, ?_, ?_, ?_, ?_, ?_, ?_⟩ <;> rfl
theorem witness_EffectFieldFollowsItsTable :
    (0x0000#16).extractLsb' 13 2 = 0b00#2 ∧ (0x2000#16).extractLsb' 13 2 = 0b01#2 ∧
      (0x5FFF#16).extractLsb' 13 2 = 0b10#2 ∧ (0xFFFF#16).extractLsb' 13 2 = 0b11#2 := by decide
theorem witness_CopyFormatsSplitTheLowBits :
    decodeWord .bit15 0x64C0#16 = some (.copy ⟨.always, .mem .r1, .mem .r1, true, 0#16⟩) ∧
      hasM (.mem .r1) (.mem .r1) = true ∧
      decodeWord .bit15 0x7640#16 = some (.copy ⟨.always, .reg .r1, .val, false, 0xFFC0#16⟩) ∧
      hasM (.reg .r1) .val = false := by decide
theorem witness_OpcodeFieldNamesTheOperation :
    decodeWord .bit15 0xF700#16 = some (aluInstr .inv ⟨.always, .reg .r1, .reg .r2, false, 0#16⟩) ∧
      decodeWord .bit15 0xF70F#16 = some (aluInstr .addOvf ⟨.always, .reg .r1, .reg .r2, false, 0#16⟩) := by decide
theorem witness_AluFormatsSplitTheLowBits :
    decodeWord .bit15 0xE4DA#16 = some (aluInstr .add ⟨.always, .mem .r1, .mem .r1, true, 1#16⟩) ∧
      decodeWord .bit15 0xF640#16 = some (aluInstr .inv ⟨.always, .reg .r1, .val, false, 0xFFFC#16⟩) ∧
      decodeWord .bit15 0xFFFF#16 = some (aluInstr .addOvf ⟨.always, .reg .r3, .reg .r3, false, 0xFFFF#16⟩) := by decide
/-- One word for each of the six clauses, each at the end of its range. -/
theorem witness_ImmediateIsUnsignedForMemSource :
    ((decodeWord .bit15 0x78BF#16).bind args?).map (fun a => (a.src.isMem, a.imm.toInt)) = some (true, 63) ∧
      ((decodeWord .bit15 0xF9BA#16).bind args?).map (fun a => (a.src.isMem, a.imm.toInt)) = some (true, 3) ∧
      ((decodeWord .bit15 0x6620#16).bind args?).map (fun a => (a.dst.isMem, a.imm.toInt)) = some (true, -32) ∧
      ((decodeWord .bit15 0xE62A#16).bind args?).map (fun a => (a.dst.isMem, a.imm.toInt)) = some (true, -2) ∧
      ((decodeWord .bit15 0x7640#16).bind args?).map (fun a => (a.dst.isMem, a.imm.toInt)) = some (false, -64) ∧
      ((decodeWord .bit15 0xF640#16).bind args?).map (fun a => (a.dst.isMem, a.imm.toInt)) = some (false, -4) := by
  decide
theorem witness_AssembledInstructionsAreWellFormed :
    assembleFrom [] ["copy push 7.imm 1.mem".toList] =
      some [.copy ⟨.always, .mem .r1, .val, true, 7#16⟩] := by decide
theorem witness_WriteChangesOneWord :
    Memory.wf State.reset.mem ∧ (∃ t, writeData .localMem 0xFFFF#16 7#16 State.reset = .ok t) ∧
      ∃ t, writeData .banked 0#16 7#16 State.reset = .ok t := ⟨by decide, ⟨_, rfl⟩, ⟨_, rfl⟩⟩
theorem witness_UnimplementedLocalAccessIsStuck :
    fetchWord (small 16#16) = .error (.unimplementedFetch 16#16) ∧
      readData .localMem 16#16 (small 0#16) = .error (.unimplementedRead 16#16) ∧
      writeData .localMem 16#16 7#16 (small 0#16) = .error (.unimplementedWrite 16#16) ∧
      fetchWord (small 15#16) = .ok 0#16 := ⟨rfl, rfl, rfl, rfl⟩
/-- The first unimplemented address is read, is the destination operand, is stored to; a store wraps. A
wide COPY meets it at its last word, of the source and of the destination. -/
theorem witness_UnimplementedAccessFaultsTheInstruction :
    ({ small 0#16 with x2 := 15#16 }.implemented (15#16 + memArgs.imm) = false ∧
      SourceReadable memArgs (small 0#16) ∧ DestReadable memArgs (small 0#16) ∧
      (small 0#16).implemented (storeAddr memArgs (small 0#16) .r1) = false ∧
      ({ small 0#16 with x1 := 16#16 } : State).implemented 16#16 = false) ∧
    ({ small 0#16 with x2 := 13#16, cr := 0x000C#16 } : State).copyWidth = 3#6 ∧
      (small 0#16).implemented (13#16 + BitVec.ofNat 16 3) = false ∧
      (∀ j < 3, WideWordReadable (wideArgs (.mem .r1) (.mem .r2)) { small 0#16 with x2 := 13#16 } j ∧
        WideWordStorable (wideArgs (.mem .r1) (.mem .r2)) { small 0#16 with x2 := 13#16 } j) ∧
      ∀ j < 3, WideWordReadable (wideArgs (.mem .r1) (.mem .r2)) { small 0#16 with x1 := 13#16 } j ∧
        WideWordStorable (wideArgs (.mem .r1) (.mem .r2)) { small 0#16 with x1 := 13#16 } j := by
  refine ⟨⟨by decide, by intro r; cases r <;> decide, by intro r; cases r <;> decide, by decide,
    by decide⟩, by decide, by decide, ?_, ?_⟩ <;>
  · intro j hj
    constructor <;> intro r <;> interval_cases j <;> cases r <;> decide
theorem witness_StepRunsTheDecodedInstruction :
    State.reset.cr.getLsbD 9 = false ∧ (small 15#16).implemented (small 15#16).pc = true ∧
      decode .bit15 [State.reset.word State.reset.pc] = .ok (.halt .ifZero, []) ∧
      decode .notAdopted [(at10 0#16 0#16 0#16 0x0010#16 0x8000#16).word 0x0010#16] =
        .error (.unknownClass 0x8000#16) := ⟨rfl, rfl, rfl, rfl⟩
theorem witness_StepIsStuckAtUnimplementedPc :
    (small 16#16).halted = false ∧ (small 16#16).implemented (small 16#16).pc = false := ⟨rfl, rfl⟩
theorem witness_HaltedProcessorKeepsItsState :
    (at10 0#16 0#16 0x0200#16 0#16 0#16).cr.getLsbD 9 = true := by decide
theorem witness_FailedEffectOnlyAdvancesPc :
    (effect (.add ⟨.ifZero, .reg .r1, .val, false, 1#16⟩) = .ifZero ∧ State.reset.flags.z = false) ∧
      (effect (.halt .ifNotZero) = .ifNotZero ∧
        ({ State.reset with flags := ⟨true, false, false, false⟩ } : State).flags.z = true) ∧
      (effect (.copy ⟨.ifNegative, .reg .r1, .val, false, 1#16⟩) = .ifNegative ∧
        State.reset.flags.n = false) ∧ State.reset.cfg.flagsOnSkip = false := by decide
theorem witness_FlagsOnSkipWritesOnlyFlags :
    effectHolds .ifZero { memState with cfg := { launchConfig with flagsOnSkip := true } }.flags = false ∧
      SourceReadable { memArgs with eff := .ifZero } memState ∧
      DestReadable { memArgs with eff := .ifZero } memState :=
  ⟨by decide, by intro r; cases r <;> decide, by intro r; cases r <;> decide⟩
theorem witness_HaltSetsTheHaltBit :
    State.reset.cr &&& 0xFC00#16 = 0#16 ∧ effectHolds .always State.reset.flags = true ∧
      effectHolds .ifZero State.reset.flags = false := by decide
theorem witness_CopyStoresTheSourceValue : ReadyOne memArgs memState ∧ memState.copyWidth = 0#6 :=
  ⟨memReady.1, by decide⟩
theorem witness_CopyWidthRefusals :
    effectHolds .always (at10 0#16 0#16 0x0004#16 0#16 0#16).flags = true ∧
      (at10 0#16 0#16 0x0004#16 0#16 0#16).cr.extractLsb' 2 6 = 1#6 ∧
      (at10 0#16 0#16 0x00FC#16 0#16 0#16).cr.extractLsb' 2 6 = 63#6 ∧
      (at10 0#16 0#16 0x0004#16 0#16 0#16).cfg.copyWidthMode = .ascending ∧
      ({ launchConfig with copyWidthMode := .refuse } : Config).copyWidthMode = .refuse ∧
      memArgs.inc = true ∧ regArgs.inc = false := by decide

/-- The widest COPY, 64 words, to r1 from r2; both blocks wrap at the end of the address space. -/
def wideState (space : Word) : State := at10 0xFFF0#16 0x8000#16 (0x00FC#16 ||| space) 0x8000#16 7#16

theorem high_wf : Memory.wf (writeWord [] 0x8000#16 7#16) := by decide

theorem wideReady (d : Dst) (src : Src) (space : Word) (h : (wideState space).copyWidth ≠ 0#6) :
    WideReady (wideArgs d src) (wideState space) := ⟨rfl, h, rfl, rfl, high_wf⟩

/-- With 65536 words of local memory every address is implemented. -/
theorem wideImplemented (space w : Word) : (wideState space).implemented w = true := by
  simp only [State.implemented, decide_eq_true_eq]
  exact w.isLt

theorem witness_WideCopyFillsLocalWords :
    WideReady (wideArgs (.mem .r1) .val) (wideState 0#16) ∧ (Src.val).isMem = false ∧
      (wideState 0#16).toSpace = .localMem ∧ (wideState 0#16).copyWidth.toNat = 63 :=
  ⟨wideReady _ _ _ (by decide), by decide, by decide, by decide⟩
theorem witness_WideCopyMovesLocalWords :
    WideReady (wideArgs (.mem .r1) (.mem .r2)) (wideState 0#16) ∧
      (wideState 0#16).fromSpace = .localMem ∧
      ∀ j < 64, ∀ k < 64, (wideState 0#16).reg .r2 + 0#16 + BitVec.ofNat 16 k ≠
        (wideState 0#16).reg .r1 + BitVec.ofNat 16 j := by
  refine ⟨wideReady _ _ _ (by decide), by decide, ?_⟩
  intro j hj k hk h
  have h' := congrArg BitVec.toNat h
  simp only [wideState, at10, State.reg, BitVec.toNat_add, BitVec.toNat_ofNat] at h'
  omega
theorem witness_WideCopySendsWordsToBanked :
    (WideReady (wideArgs (.mem .r1) (.mem .r2)) (wideState 1#16) ∧ (wideState 1#16).toSpace = .banked ∧
      (wideState 1#16).fromSpace = .localMem ∧
      WideReadable (wideArgs (.mem .r1) (.mem .r2)) (wideState 1#16)) ∧
    (WideReady (wideArgs (.mem .r1) .val) (wideState 1#16) ∧ (Src.val).isMem = false) ∧
    (wideState 3#16).fromSpace = .banked ∧ (wideState 3#16).toSpace = .banked :=
  ⟨⟨wideReady _ _ _ (by decide), by decide, by decide, fun _ _ _ _ _ => wideImplemented _ _⟩,
    ⟨wideReady _ _ _ (by decide), by decide⟩, by decide, by decide⟩
theorem witness_WideCopyBringsBankedWords :
    WideReady (wideArgs (.mem .r1) (.mem .r2)) (wideState 2#16) ∧ (wideState 2#16).fromSpace = .banked ∧
      (wideState 2#16).toSpace = .localMem := ⟨wideReady _ _ _ (by decide), by decide, by decide⟩
theorem witness_WideCopyToRegisterStoresTheLastWord :
    (WideReady (wideArgs (.reg .r2) (.mem .r2)) (wideState 0#16) ∧ (Dst.reg .r2).isMem = false ∧
      (wideState 0#16).fromSpace = .localMem ∧
      WideReadable (wideArgs (.reg .r2) (.mem .r2)) (wideState 0#16)) ∧
    WideReady (wideArgs .cr .val) (wideState 0#16) ∧ (Dst.cr).isMem = false ∧ (Src.val).isMem = false ∧
    WideReady (wideArgs .pc (.mem .r2)) (wideState 2#16) ∧ (wideState 2#16).fromSpace = .banked :=
  ⟨⟨wideReady _ _ _ (by decide), by decide, by decide, fun _ _ _ _ _ => wideImplemented _ _⟩,
    wideReady _ _ _ (by decide), by decide, by decide, wideReady _ _ _ (by decide), by decide⟩
theorem witness_InvFlipsEveryBit : ReadyOne memArgs memState := memReady.1
theorem witness_NegStoresTheTwosComplement : ReadyOne memArgs memState := memReady.1
theorem witness_SwapExchangesTheBytes : ReadyOne memArgs memState := memReady.1
theorem witness_ZeroLsbClearsTheLowByte : ReadyOne memArgs memState := memReady.1
theorem witness_ZeroMsbKeepsTheLowByte : ReadyOne memArgs memState := memReady.1
theorem witness_PageFindsTheFirstWordOfThePage : ReadyOne memArgs memState := memReady.1
theorem witness_AddOvfAddsTheOverflowRegister : ReadyOne memArgs memState := memReady.1
theorem witness_AndStoresTheConjunction : ReadyTwo memArgs memState := memReady
theorem witness_OrStoresTheDisjunction : ReadyTwo memArgs memState := memReady
theorem witness_XorStoresTheExclusiveOr : ReadyTwo memArgs memState := memReady
theorem witness_ShlSplitsTheUnboundedShift : ReadyTwo memArgs memState := memReady
theorem witness_ShrRespectsSignedMode : ReadyTwo memArgs memState := memReady
theorem witness_AddWritesTheWideSum : ReadyTwo memArgs memState ∧ memState.signedMode = false ∧
    ReadyTwo regArgs (at10 1#16 2#16 0x0100#16 0#16 1#16) ∧
    (at10 1#16 2#16 0x0100#16 0#16 1#16).signedMode = true :=
  ⟨memReady, by decide, regReady _ _ _, by decide⟩
theorem witness_SubWritesTheWideDifference : ReadyTwo memArgs memState ∧ memState.signedMode = false ∧
    ReadyTwo regArgs (at10 1#16 2#16 0x0100#16 0#16 1#16) ∧
    (at10 1#16 2#16 0x0100#16 0#16 1#16).signedMode = true :=
  ⟨memReady, by decide, regReady _ _ _, by decide⟩
theorem witness_MulWritesTheWideProduct : ReadyTwo memArgs memState ∧ memState.signedMode = false ∧
    ReadyTwo regArgs (at10 1#16 2#16 0x0100#16 0#16 1#16) ∧
    (at10 1#16 2#16 0x0100#16 0#16 1#16).signedMode = true :=
  ⟨memReady, by decide, regReady _ _ _, by decide⟩
theorem witness_DivWritesQuotientAndRemainder :
    ReadyTwo regArgs (at10 0x8000#16 0xFFFF#16 0x0100#16 0#16 1#16) ∧
      srcVal regArgs (at10 0x8000#16 0xFFFF#16 0x0100#16 0#16 1#16) ≠ 0#16 := ⟨regReady _ _ _, by decide⟩
theorem witness_DivByZeroCompletes :
    ReadyTwo regArgs (at10 7#16 0#16 0#16 0#16 1#16) ∧
      srcVal regArgs (at10 7#16 0#16 0#16 0#16 1#16) = 0#16 := ⟨regReady _ _ _, by decide⟩
theorem witness_DivisionLaw :
    (0xFFFF#16 : Word) ≠ 0#16 ∧ ¬(true = true ∧ 0x8001#16 = 0x8000#16 ∧ 0xFFFF#16 = 0xFFFF#16) ∧
      ¬(false = true ∧ 0x8000#16 = 0x8000#16 ∧ 0xFFFF#16 = 0xFFFF#16) := by decide
theorem witness_SignedModeReachesFiveOperations :
    (respectsMode (.and memArgs) = false ∧ memArgs.dst ≠ .cr) ∧
    (respectsMode (.neg ⟨.always, .cr, .val, false, 0#16⟩) = false ∧ twoOperand .neg = false) ∧
    (∃ t, exec (.sub memArgs) memState = .next t) ∧ (∃ u, exec (.sub memArgs) (flipG memState) = .next u) ∧
    (∃ t, exec (.mul memArgs) memState = .next t) ∧ ∃ u, exec (.mul memArgs) (flipG memState) = .next u :=
  ⟨by decide, by decide, ⟨_, rfl⟩, ⟨_, rfl⟩, ⟨_, rfl⟩, ⟨_, rfl⟩⟩
theorem witness_EveryStepKeepsTheInvariant :
    Invariant State.reset ∧ Invariant memState ∧ ∃ t, step memState = .next t :=
  ⟨by decide, by decide, _, rfl⟩
theorem witness_BankedRecordOnlyGrows :
    (∃ t, exec (.copy memArgs) memState = .next t) ∧ memState.cr.getLsbD 1 = false ∧
      memState.cr.getLsbD 0 = false := ⟨⟨_, rfl⟩, by decide, by decide⟩
theorem witness_OnlyAluInstructionsWriteFlags :
    (memState.withFetchWord 16 0xE640).cfg.flagsOnSkip = false ∧
      ∃ t, step (memState.withFetchWord 16 0xE640) = .next t ∧
        t.flags ≠ (memState.withFetchWord 16 0xE640).flags := ⟨by decide, _, rfl, by decide⟩
theorem witness_AluWritesFlagsWhateverItsDestination :
    effectHolds memArgs.eff memState.flags = true ∧
      (∃ t, exec (aluInstr .sub memArgs) memState = .next t) ∧
      ∃ t, exec (.copy memArgs) memState = .next t := ⟨by decide, ⟨_, rfl⟩, ⟨_, rfl⟩⟩
theorem witness_PcAdvancesUnlessStoredTo :
    (∃ t, exec (.copy memArgs) memState = .next t) ∧
      (∃ t, exec (.copy ⟨.always, .pc, .reg .r2, false, 0#16⟩) memState = .next t) ∧
      (∃ t, exec (aluInstr .or ⟨.always, .pc, .reg .r2, false, 0#16⟩) memState = .next t) ∧
      memState.copyWidth = 0#6 ∧ ∃ t, exec (.halt .always) memState = .next t :=
  ⟨⟨_, rfl⟩, ⟨_, rfl⟩, ⟨_, rfl⟩, by decide, ⟨_, rfl⟩⟩
theorem witness_TwoWaysIntoTheHaltedState :
    (∃ t, step (memState.withFetchWord 16 0x6000) = .next t ∧ t.cr ≠ (memState.withFetchWord 16 0x6000).cr) ∧
      ∃ t, step (memState.withFetchWord 16 0x727F) = .next t ∧
        t.cr ≠ (memState.withFetchWord 16 0x727F).cr := ⟨⟨_, rfl, by decide⟩, ⟨_, rfl, by decide⟩⟩
theorem witness_OneInstructionWritesOneWord :
    Memory.wf memState.mem ∧ memState.copyWidth = 0#6 ∧ ∃ t, exec (.copy memArgs) memState = .next t ∧
      t.word 0xFFFF#16 ≠ memState.word 0xFFFF#16 := ⟨by decide, by decide, _, rfl, by decide⟩
theorem witness_PopUndoesPush :
    Memory.wf memState.mem ∧ Reg.r1 ≠ Reg.r2 ∧ memState.copyWidth = 0#6 ∧
      memState.fromSpace = .localMem ∧ memState.toSpace = .localMem ∧
      memState.implemented (memState.reg .r1 - 1#16) = true := by decide

end Sys2Proof.Tests
end

/-! ## The decoder's fields (30_encoding.md R52 to R60) -/

namespace Sys2Proof.Encoding

open Sys2Proof.Machine Sys2Proof.Safety

/-! ### What a word decodes to -/

/-- The three ways a word decodes, with the tests that choose between them (R51, R61). -/
theorem decodeWord_cases {r : ClassBit} {w : Word} {i : Instr} (h : decodeWord r w = some i) :
    (classOf r w = some .copy ∧ w &&& 0x9FFF#16 = 0#16 ∧ i = .halt (effectOf w)) ∨
    (classOf r w = some .copy ∧ w &&& 0x9FFF#16 ≠ 0#16 ∧ i = .copy (argsOf .copy w)) ∨
    (classOf r w = some .alu ∧ i = aluOf (w.extractLsb' 0 4) (argsOf .alu w)) := by
  obtain ⟨c, hc, hi⟩ := Option.map_eq_some_iff.mp h
  subst hi
  cases c with
  | copy =>
    by_cases hz : w &&& 0x9FFF#16 = 0#16
    · exact .inl ⟨hc, hz, if_pos hz⟩
    · exact .inr (.inl ⟨hc, hz, if_neg hz⟩)
  | alu => exact .inr (.inr ⟨hc, rfl⟩)

@[simp] theorem args_aluOf (op : BitVec 4) (a : Args) : args? (aluOf op a) = some a := by
  unfold aluOf
  split <;> rfl

@[simp] theorem isCopy_aluOf (op : BitVec 4) (a : Args) : isCopy (aluOf op a) = false := by
  unfold aluOf
  split <;> rfl

/-- The arguments of a decoded instruction are those of its word and class. -/
theorem args_of_decodeWord {r : ClassBit} {w : Word} {i : Instr} {a : Args}
    (h : decodeWord r w = some i) (ha : args? i = some a) :
    ∃ c, classOf r w = some c ∧ a = argsOf c w := by
  obtain ⟨_, _, rfl⟩ | ⟨hc, _, rfl⟩ | ⟨hc, rfl⟩ := decodeWord_cases h
  · cases ha
  · exact ⟨.copy, hc, (Option.some.inj ha).symm⟩
  · rw [args_aluOf] at ha
    exact ⟨.alu, hc, (Option.some.inj ha).symm⟩

/-- A decoded COPY comes from the branch of the COPY words. -/
theorem decodeWord_copy {r : ClassBit} {w : Word} {a : Args} (h : decodeWord r w = some (.copy a)) :
    a = argsOf .copy w := by
  obtain ⟨_, _, hi⟩ | ⟨_, _, hi⟩ | ⟨_, hi⟩ := decodeWord_cases h
  · cases hi
  · exact Instr.copy.inj hi
  · exact nomatch (congrArg isCopy hi).trans (isCopy_aluOf _ _)

/-- A decoded ALU instruction comes from the branch of the ALU words. -/
theorem decodeWord_aluInstr {r : ClassBit} {w : Word} {op : AluOp} {a : Args}
    (h : decodeWord r w = some (aluInstr op a)) :
    aluInstr op a = aluOf (w.extractLsb' 0 4) (argsOf .alu w) := by
  obtain ⟨_, _, hi⟩ | ⟨_, _, hi⟩ | ⟨_, hi⟩ := decodeWord_cases h
  · exact nomatch (isAlu_aluInstr op a).symm.trans (congrArg isAlu hi)
  · exact nomatch (isAlu_aluInstr op a).symm.trans (congrArg isAlu hi)
  · exact hi

/-! ### The arguments of a word -/

@[simp] theorem argsOf_src (c : Class) (w : Word) : (argsOf c w).src = srcOf w := by
  cases h : hasM (dstOf w) (srcOf w) <;> simp [argsOf, h]

@[simp] theorem argsOf_dst (c : Class) (w : Word) : (argsOf c w).dst = dstOf w := by
  cases h : hasM (dstOf w) (srcOf w) <;> simp [argsOf, h]

@[simp] theorem argsOf_inc (c : Class) (w : Word) :
    (argsOf c w).inc = (hasM (dstOf w) (srcOf w) && w.getLsbD 6) := by
  cases h : hasM (dstOf w) (srcOf w) <;> simp [argsOf, h]

/-- The immediate field of formats C6 and C7 (R54). -/
theorem argsOf_copy_imm (w : Word) :
    (argsOf .copy w).imm =
      if hasM (dstOf w) (srcOf w) then extendImm (srcOf w) (w.extractLsb' 0 6)
      else extendImm (srcOf w) (w.extractLsb' 0 7) := by
  cases h : hasM (dstOf w) (srcOf w) <;> simp [argsOf, h]

/-- Either extension of R56 keeps the bits of the field. -/
theorem extractLsb'_extendImm {n : Nat} (hn : n ≤ 16) (s : Src) (raw : BitVec n) :
    (extendImm s raw).extractLsb' 0 n = raw := by
  apply BitVec.eq_of_getLsbD_eq
  intro k hk
  have hk16 : k < 16 := by omega
  unfold extendImm
  split
  · simp [hk, hk16]
  · simp [BitVec.getElem_signExtend, hk, hk16]

/-! ### The operation of an ALU instruction -/

/-- The operation of an instruction, if it is an ALU instruction: `aluInstr` read backwards. -/
def aluOp? : Instr → Option AluOp
  | .halt _ => none
  | .copy _ => none
  | .inv _ => some .inv
  | .and _ => some .and
  | .or _ => some .or
  | .xor _ => some .xor
  | .neg _ => some .neg
  | .shl _ => some .shl
  | .shr _ => some .shr
  | .swap _ => some .swap
  | .zeroLsb _ => some .zeroLsb
  | .zeroMsb _ => some .zeroMsb
  | .add _ => some .add
  | .sub _ => some .sub
  | .mul _ => some .mul
  | .div _ => some .div
  | .page _ => some .page
  | .addOvf _ => some .addOvf

@[simp] theorem aluOp_aluInstr (op : AluOp) (a : Args) : aluOp? (aluInstr op a) = some op := by
  cases op <;> rfl

/-- The operation of a decoded ALU instruction is the one of its opcode field. -/
theorem aluOp_of_decodeWord {r : ClassBit} {w : Word} {op : AluOp} {a : Args}
    (h : decodeWord r w = some (aluInstr op a)) :
    aluOp? (aluOf (w.extractLsb' 0 4) (argsOf .alu w)) = some op := by
  rw [← decodeWord_aluInstr h, aluOp_aluInstr]

/-! ### The statements -/

/-- Settles O5: the decoded source has the code at w[9:7], and no two sources share a code. -/
theorem sourceFieldFollowsItsTable : Obligations.SourceFieldFollowsItsTable := by
  intro r w i a h ha p hp
  obtain ⟨c, _, rfl⟩ := args_of_decodeWord h ha
  have table : p.2.bits = p.1 := by
    fin_cases hp <;> rfl
  intro hw
  apply Src.bits_inj
  rw [argsOf_src, srcOf_bits, hw, table]

/-- Settles O6: the decoded destination has the code at w[12:10], and no two destinations share a code. -/
theorem destinationFieldFollowsItsTable : Obligations.DestinationFieldFollowsItsTable := by
  intro r w i a h ha p hp
  obtain ⟨c, _, rfl⟩ := args_of_decodeWord h ha
  have table : p.2.bits = p.1 := by
    fin_cases hp <;> rfl
  intro hw
  apply Dst.bits_inj
  rw [argsOf_dst, dstOf_bits, hw, table]

/-- Settles O8: `hasM` chooses the format, and the extension keeps the bits of the field it takes. -/
theorem copyFormatsSplitTheLowBits : Obligations.CopyFormatsSplitTheLowBits := by
  intro r w a h
  rw [decodeWord_copy h, argsOf_src, argsOf_dst, argsOf_inc, argsOf_copy_imm]
  refine ⟨fun hm => ?_, fun hm => ?_⟩
  · rw [hm, if_pos rfl, extractLsb'_extendImm (by decide)]
    exact ⟨Bool.true_and _, rfl⟩
  · rw [hm, if_neg Bool.false_ne_true, extractLsb'_extendImm (by decide)]
    exact ⟨Bool.false_and _, rfl⟩

/-- Settles O9: each code of the list is decoded to the instruction of its operation, and `aluOp?` reads
the operation back. -/
theorem opcodeFieldNamesTheOperation : Obligations.OpcodeFieldNamesTheOperation := by
  intro r w op a h p hp hw
  have decoded := aluOp_of_decodeWord h
  rw [hw] at decoded
  have table (b : Args) : aluOp? (aluOf p.1 b) = some p.2 := by
    fin_cases hp <;> rfl
  exact Option.some.inj (decoded.symm.trans (table _))

end Sys2Proof.Encoding

/-! ## The common operands (40_common_operands.md R70 to R81) -/

namespace Sys2Proof.CommonOperands

open Sys2Proof.Machine Sys2Proof.Safety

/-! ### What writes the flags and the overflow register -/

@[simp] theorem nextPc_flags (d : Dst) (s : State) : (nextPc d s).flags = s.flags := by
  cases d <;> rfl

@[simp] theorem nextPc_ovf (d : Dst) (s : State) : (nextPc d s).ovf = s.ovf := by
  cases d <;> rfl

/-- An ALU instruction whose effect holds reads its operands, which only adds to the record, and finishes
with the output of its operation on them (R75, R76). -/
theorem exec_aluInstr_held {op : AluOp} {a : Args} {s t : State}
    (heff : effectHolds a.eff s.flags = true) (h : exec (aluInstr op a) s = .next t) :
    ∃ evs, finishAlu a (aluOut op s.signedMode s.ovf (dstVal a s) (srcVal a s)) (logged s evs) =
      .ok t := by
  obtain ⟨operate, hexec, hoperate⟩ := exec_aluInstr op a s
  rw [hexec] at h
  obtain ⟨hfails, -, -⟩ | ⟨hfails, -, -⟩ | ⟨-, o, s1, hread, hfinish⟩ := execAlu_next h
  · exact absurd heff (by simp [hfails])
  · exact absurd heff (by simp [hfails])
  · obtain ⟨-, -, hp⟩ := (hoperate _).mp hread
    obtain ⟨rfl, rfl⟩ := Prod.mk.inj hp
    exact ⟨_, hfinish⟩

/-- Finishing an ALU instruction writes the flags and the overflow register of its output after the
store, so no destination can overwrite them. -/
theorem finishAlu_writes_flags {a : Args} {o : AluOut} {s t : State} (h : finishAlu a o s = .ok t) :
    t.flags = o.flags ∧ t.ovf = o.ovf := by
  obtain ⟨u, -, rfl⟩ := finishAlu_store h
  exact ⟨setAlu_flags _ _ _, setAlu_ovf _ _ _⟩

/-- A COPY of one word keeps the flags and the overflow register. -/
theorem copyOne_keeps_flags {a : Args} {s t : State} (h : copyOne a s = .ok t) :
    t.flags = s.flags ∧ t.ovf = s.ovf := by
  obtain ⟨-, u, hstore, rfl⟩ := copyOne_store h
  obtain ⟨-, -, -, -, -, hflags, hovf⟩ := store_frame hstore
  exact ⟨hflags, hovf⟩

/-- A COPY keeps the flags and the overflow register, whatever its effect and the copy width. -/
theorem execCopy_keeps_flags {a : Args} {s t : State} (h : execCopy a s = .next t) :
    t.flags = s.flags ∧ t.ovf = s.ovf := by
  obtain ⟨-, rfl⟩ | ⟨-, -, hone⟩ | ⟨-, -, -, -, u, hwords, rfl⟩ := execCopy_next h
  · exact ⟨advancePc_flags s, advancePc_ovf s⟩
  · exact copyOne_keeps_flags hone
  · have keeps := copyWords_keeps hwords
    exact ⟨(nextPc_flags _ _).trans keeps.flags, (nextPc_ovf _ _).trans keeps.ovf⟩

/-! ### The statement -/

/-- Settles O54: the flags of an ALU instruction are written after its store, and every path of a COPY
keeps them. -/
theorem aluWritesFlagsWhateverItsDestination :
    Obligations.AluWritesFlagsWhateverItsDestination := by
  refine ⟨fun op a s t heff h => ?_, fun a s t h => execCopy_keeps_flags h⟩
  obtain ⟨evs, hfinish⟩ := exec_aluInstr_held heff h
  exact finishAlu_writes_flags hfinish

end Sys2Proof.CommonOperands

/-! ## The encoder and the decoder undo each other (30_encoding.md R50 to R62) -/

namespace Sys2Proof.Encoding

open Sys2Proof.Machine Sys2Proof.Safety

/-! ### The class of a word -/

/-- The class of a word with its class bit, by CLASS_BIT (R51). -/
theorem classOf_copy_iff (r : ClassBit) (w : Word) :
    classOf r w = some .copy ↔ w.extractLsb' 15 1 = Class.copy.bit := by
  unfold classOf
  split
  · next h => exact iff_of_true rfl h
  · next h => exact iff_of_false (by cases r <;> simp) h

/-- A word is an ALU word where its class bit is not that of COPY and decision D1 is adopted. -/
theorem classOf_alu_iff (r : ClassBit) (w : Word) :
    classOf r w = some .alu ↔ w.extractLsb' 15 1 = Class.alu.bit ∧ r = .bit15 := by
  have hbits : w.extractLsb' 15 1 = Class.alu.bit ↔ ¬w.extractLsb' 15 1 = Class.copy.bit := by
    generalize w.extractLsb' 15 1 = b
    revert b
    decide
  unfold classOf
  rw [hbits]
  split
  · next h => simp [h]
  · next h => cases r <;> simp [h]

/-- The class bit is bit 15. -/
theorem extract_class_bit (w : Word) : w.extractLsb' 15 1 = BitVec.ofBool (w.getLsbD 15) := by
  apply BitVec.eq_of_getLsbD_eq
  intro i hi
  obtain rfl : i = 0 := by omega
  simp

/-- Bit 15 of a word of a class is the class bit (R51). -/
theorem class_bit_of_classOf {r : ClassBit} {w : Word} {c : Class} (h : classOf r w = some c) :
    w.extractLsb' 15 1 = c.bit := by
  cases c with
  | copy => exact (classOf_copy_iff r w).mp h
  | alu => exact ((classOf_alu_iff r w).mp h).1

/-! ### The fields of a word -/

@[simp] theorem argsOf_eff (c : Class) (w : Word) : (argsOf c w).eff = effectOf w := by
  cases h : hasM (dstOf w) (srcOf w) <;> simp [argsOf, h]

/-- The immediate field of formats A2 and A3 (R55). -/
theorem argsOf_alu_imm (w : Word) :
    (argsOf .alu w).imm =
      if hasM (dstOf w) (srcOf w) then extendImm (srcOf w) (w.extractLsb' 4 2)
      else extendImm (srcOf w) (w.extractLsb' 4 3) := by
  cases h : hasM (dstOf w) (srcOf w) <;> simp [argsOf, h]

/-- The low bits of a COPY word with a `mem` argument: the increment above the immediate (R54). -/
theorem copy_low_bits (w : Word) :
    BitVec.ofBool (w.getLsbD 6) ++ w.extractLsb' 0 6 = w.extractLsb' 0 7 := by
  apply BitVec.eq_of_getLsbD_eq
  intro i hi
  simp only [BitVec.getLsbD_append, BitVec.getLsbD_extractLsb']
  interval_cases i <;> simp

/-- The low bits of an ALU word: the increment, the immediate and the operation (R55). -/
theorem alu_low_bits (w : Word) :
    (BitVec.ofBool (w.getLsbD 6) ++ w.extractLsb' 4 2 : BitVec 3) = w.extractLsb' 4 3 ∧
      (w.extractLsb' 4 3 ++ w.extractLsb' 0 4 : BitVec 7) = w.extractLsb' 0 7 := by
  constructor <;> apply BitVec.eq_of_getLsbD_eq <;> intro i hi <;>
    simp only [BitVec.getLsbD_append, BitVec.getLsbD_extractLsb'] <;> interval_cases i <;> simp

/-- An ALU word is its five fields, the low one in two parts. -/
theorem alu_word_append (c : BitVec 1) (e : BitVec 2) (d s m : BitVec 3) (op : BitVec 4) :
    (c ++ e ++ d ++ s ++ m ++ op : BitVec 16) = c ++ e ++ d ++ s ++ (m ++ op : BitVec 7) := by
  apply BitVec.eq_of_getLsbD_eq
  intro i hi
  simp only [BitVec.getLsbD_append]
  interval_cases i <;> simp

/-- The parts of a field made of an increment bit and an immediate, or of an operation below. -/
theorem extract_append {m n : Nat} (x : BitVec m) (y : BitVec n) :
    (x ++ y).extractLsb' 0 n = y ∧ (x ++ y).extractLsb' n m = x := by
  constructor <;> apply BitVec.eq_of_getLsbD_eq <;> intro i hi <;>
    simp [BitVec.getLsbD_append, hi]

/-! ### Encoding what was decoded -/

/-- A COPY word is the word of its arguments. -/
theorem encodeCopy_argsOf {w : Word} (h : w.extractLsb' 15 1 = Class.copy.bit) :
    encodeCopy (argsOf .copy w) = w := by
  have low : (if hasM (dstOf w) (srcOf w) then
        BitVec.ofBool (argsOf .copy w).inc ++ (argsOf .copy w).imm.extractLsb' 0 6
      else (argsOf .copy w).imm.extractLsb' 0 7 : BitVec 7) = w.extractLsb' 0 7 := by
    rw [argsOf_copy_imm, argsOf_inc]
    cases hasM (dstOf w) (srcOf w)
    · exact extractLsb'_extendImm (by decide) _ _
    · rw [if_pos rfl, if_pos rfl, extractLsb'_extendImm (by decide), Bool.true_and, copy_low_bits]
  simp only [encodeCopy, argsOf_eff, argsOf_dst, argsOf_src, low, effectOf_bits, dstOf_bits,
    srcOf_bits, ← h]
  exact word_of_fields w

/-- An ALU word is the word of its operation and arguments. -/
theorem encodeAlu_argsOf {w : Word} (h : w.extractLsb' 15 1 = Class.alu.bit) :
    encodeAlu (w.extractLsb' 0 4) (argsOf .alu w) = w := by
  have mid : (if hasM (dstOf w) (srcOf w) then
        BitVec.ofBool (argsOf .alu w).inc ++ (argsOf .alu w).imm.extractLsb' 0 2
      else (argsOf .alu w).imm.extractLsb' 0 3 : BitVec 3) = w.extractLsb' 4 3 := by
    rw [argsOf_alu_imm, argsOf_inc]
    cases hasM (dstOf w) (srcOf w)
    · exact extractLsb'_extendImm (by decide) _ _
    · rw [if_pos rfl, if_pos rfl, extractLsb'_extendImm (by decide), Bool.true_and,
        (alu_low_bits w).1]
  simp only [encodeAlu, argsOf_eff, argsOf_dst, argsOf_src, mid, effectOf_bits, dstOf_bits,
    srcOf_bits, ← h]
  rw [alu_word_append, (alu_low_bits w).2]
  exact word_of_fields w

/-- The HALT mask clears the effect field and no other (R61). -/
theorem halt_mask_fields (c : BitVec 1) (e : BitVec 2) (d s : BitVec 3) (l : BitVec 7) :
    (c ++ e ++ d ++ s ++ l : BitVec 16) &&& 0x9FFF#16 = (c ++ 0#2 ++ d ++ s ++ l : BitVec 16) := by
  apply BitVec.eq_of_getLsbD_eq
  intro i hi
  simp only [BitVec.getLsbD_and, BitVec.getLsbD_append]
  interval_cases i <;> simp

/-- A word is a HALT when every field but the effect is zero (R61). -/
theorem halt_word_iff (w : Word) :
    w &&& 0x9FFF#16 = 0#16 ↔ w.extractLsb' 15 1 = 0#1 ∧ w.extractLsb' 10 3 = 0#3 ∧
      w.extractLsb' 7 3 = 0#3 ∧ w.extractLsb' 0 7 = 0#7 := by
  have masked := halt_mask_fields (w.extractLsb' 15 1) (w.extractLsb' 13 2) (w.extractLsb' 10 3)
    (w.extractLsb' 7 3) (w.extractLsb' 0 7)
  rw [word_of_fields] at masked
  rw [masked]
  constructor
  · intro h
    obtain ⟨hc, -, hd, hs, hl⟩ := fields_of_word (w.extractLsb' 15 1) 0#2 (w.extractLsb' 10 3)
      (w.extractLsb' 7 3) (w.extractLsb' 0 7)
    rw [h] at hc hd hs hl
    exact ⟨hc.symm, hd.symm, hs.symm, hl.symm⟩
  · rintro ⟨hc, hd, hs, hl⟩
    rw [hc, hd, hs, hl]
    rfl

/-- A HALT word is the word of its effect (R61). -/
theorem encodeHalt_effectOf {w : Word} (h : w &&& 0x9FFF#16 = 0#16) :
    encodeWord (.halt (effectOf w)) = w := by
  obtain ⟨hc, hd, hs, hl⟩ := (halt_word_iff w).mp h
  have fields := word_of_fields w
  rw [hc, hd, hs, hl, ← effectOf_bits] at fields
  rw [← fields]
  cases effectOf w <;> rfl

/-- The word of the ALU instruction of an opcode field. -/
theorem encodeWord_aluOf (op : BitVec 4) (a : Args) : encodeWord (aluOf op a) = encodeAlu op a := by
  have table : ∀ k : Fin 16, encodeWord (aluOf (BitVec.ofFin k) a) = encodeAlu (BitVec.ofFin k) a := by
    intro k
    fin_cases k <;> rfl
  exact table op.toFin

/-- Settles O2: each of the three branches of the decoder keeps every field. -/
theorem encodeOfDecodeIsTheWord : Obligations.EncodeOfDecodeIsTheWord := by
  intro r w i h
  obtain ⟨_, hz, rfl⟩ | ⟨hc, _, rfl⟩ | ⟨hc, rfl⟩ := decodeWord_cases h
  · exact encodeHalt_effectOf hz
  · exact encodeCopy_argsOf (class_bit_of_classOf hc)
  · rw [encodeWord_aluOf]
    exact encodeAlu_argsOf (class_bit_of_classOf hc)


/-! ### The extension of the immediate (R56, decision D34) -/

/-- The immediate of a `mem` source is its field read as unsigned. -/
theorem extendImm_toInt_of_mem {n : Nat} (hn : n < 16) {s : Src} (hs : s.isMem = true)
    (raw : BitVec n) : (extendImm s raw).toInt = raw.toNat := by
  have hfield : raw.toNat < 2 ^ n := raw.isLt
  have hpow : 2 ^ n ≤ 2 ^ 15 := Nat.pow_le_pow_right (by decide) (by omega)
  have hkeep : (extendImm s raw).toNat = raw.toNat := by
    simp only [extendImm, hs, if_true, BitVec.truncate_eq_setWidth, BitVec.toNat_setWidth]
    omega
  rw [BitVec.toInt_eq_toNat_of_lt (by omega), hkeep]

/-- Every other immediate is its field read as two's complement. -/
theorem extendImm_toInt_of_not_mem {n : Nat} (hn : n ≤ 16) {s : Src} (hs : s.isMem = false)
    (raw : BitVec n) : (extendImm s raw).toInt = raw.toInt := by
  simpa [extendImm, hs] using BitVec.toInt_signExtend_of_le hn

/-- The range of an immediate of `n` bits, by its source (R56). -/
def InRange (n : Nat) (s : Src) (x : Int) : Prop :=
  if s.isMem then 0 ≤ x ∧ x < 2 ^ n else -2 ^ (n - 1) ≤ x ∧ x < 2 ^ (n - 1)

/-- An extended field lies in its range. -/
theorem inRange_extendImm {n : Nat} (hn : n < 16) (s : Src) (raw : BitVec n) :
    InRange n s (extendImm s raw).toInt := by
  unfold InRange
  cases hs : s.isMem
  · rw [extendImm_toInt_of_not_mem hn.le hs]
    exact ⟨BitVec.le_toInt raw, BitVec.toInt_lt⟩
  · rw [extendImm_toInt_of_mem hn hs]
    exact ⟨Int.natCast_nonneg _, by exact_mod_cast raw.isLt⟩

/-- An immediate in its range is the extension of its low bits. -/
theorem extendImm_extractLsb' {n : Nat} (h0 : 0 < n) (hn : n < 16) {s : Src} {imm : Word}
    (h : InRange n s imm.toInt) : extendImm s (imm.extractLsb' 0 n) = imm := by
  have split : (2 : Int) ^ n = 2 * 2 ^ (n - 1) := by
    rw [← pow_succ', Nat.sub_add_cancel h0]
  apply BitVec.eq_of_toInt_eq
  unfold InRange at h
  rw [← BitVec.setWidth_eq_extractLsb' hn.le]
  cases hs : s.isMem
  · simp only [hs, Bool.false_eq_true, if_false] at h
    rw [extendImm_toInt_of_not_mem hn.le hs, ← BitVec.signExtend_eq_setWidth_of_le _ hn.le,
      BitVec.toInt_signExtend, min_eq_left hn.le]
    apply Int.bmod_eq_of_le <;> push_cast <;> omega
  · simp only [hs, if_true] at h
    rw [extendImm_toInt_of_mem hn hs, BitVec.toNat_setWidth]
    have hnat : imm.toInt = imm.toNat := BitVec.toInt_eq_toNat_of_lt (by
      have := BitVec.toInt_eq_toNat_cond imm
      split at this <;> omega)
    have hlt : imm.toNat < 2 ^ n := by
      have := hnat ▸ h.2
      exact_mod_cast this
    rw [hnat, Nat.mod_eq_of_lt hlt]

/-- The width of the immediate field of a class (R54, R55). -/
def immWidth (c : Class) (a : Args) : Nat :=
  match c with
  | .copy => if hasM a.dst a.src then 6 else 7
  | .alu => if hasM a.dst a.src then 2 else 3

/-- R56's table is the range of the class's field. -/
theorem immFits_iff (c : Class) (a : Args) :
    immFits c a = true ↔ InRange (immWidth c a) a.src a.imm.toInt := by
  unfold immFits immMin immMax InRange immWidth hasM
  cases c <;> cases a.src.isMem <;> cases a.dst.isMem <;> simp <;> omega

/-- The immediate of a word lies in the range of the field its class and arguments give it. -/
theorem argsOf_imm_inRange (c : Class) (w : Word) :
    InRange (immWidth c (argsOf c w)) (argsOf c w).src (argsOf c w).imm.toInt := by
  unfold immWidth
  rw [argsOf_src, argsOf_dst]
  cases c
  · rw [argsOf_copy_imm]
    cases hasM (dstOf w) (srcOf w) <;> exact inRange_extendImm (by decide) _ _
  · rw [argsOf_alu_imm]
    cases hasM (dstOf w) (srcOf w) <;> exact inRange_extendImm (by decide) _ _

/-- The arguments of a word fit their ranges and have an increment only beside a `mem` argument. -/
theorem argsOf_fits (c : Class) (w : Word) :
    immFits c (argsOf c w) = true ∧ incAllowed (argsOf c w) = true := by
  refine ⟨(immFits_iff c _).mpr (argsOf_imm_inRange c w), ?_⟩
  rw [incAllowed, argsOf_inc, argsOf_dst, argsOf_src]
  cases hasM (dstOf w) (srcOf w) <;> simp

/-! ### Decoding what was encoded -/

/-- Arguments with equal parts are equal. -/
theorem args_eq {a b : Args} (heff : a.eff = b.eff) (hdst : a.dst = b.dst) (hsrc : a.src = b.src)
    (hinc : a.inc = b.inc) (himm : a.imm = b.imm) : a = b := by
  cases a
  cases b
  simp_all

/-- The fields of a word made of a class bit, arguments and low bits are read back. -/
theorem fields_of_encoding (c : Class) (a : Args) (l : BitVec 7) (w : Word)
    (hw : w = c.bit ++ a.eff.bits ++ a.dst.bits ++ a.src.bits ++ l) :
    w.extractLsb' 15 1 = c.bit ∧ effectOf w = a.eff ∧ dstOf w = a.dst ∧ srcOf w = a.src ∧
      w.extractLsb' 0 7 = l := by
  obtain ⟨hc, he, hd, hs, hl⟩ := fields_of_word c.bit a.eff.bits a.dst.bits a.src.bits l
  rw [← hw] at hc he hd hs hl
  exact ⟨hc, Effect.bits_inj (effectOf_bits w ▸ he), Dst.bits_inj (dstOf_bits w ▸ hd),
    Src.bits_inj (srcOf_bits w ▸ hs), hl⟩

/-- What the decoder reads from the word of a COPY. -/
theorem encodeCopy_fields (a : Args) :
    (encodeCopy a).extractLsb' 15 1 = Class.copy.bit ∧ effectOf (encodeCopy a) = a.eff ∧
      dstOf (encodeCopy a) = a.dst ∧ srcOf (encodeCopy a) = a.src ∧
      (encodeCopy a).extractLsb' 0 7 =
        if hasM a.dst a.src then BitVec.ofBool a.inc ++ a.imm.extractLsb' 0 6
        else a.imm.extractLsb' 0 7 :=
  fields_of_encoding .copy a _ _ rfl

/-- What the decoder reads from the word of an ALU instruction. -/
theorem encodeAlu_fields (op : BitVec 4) (a : Args) :
    (encodeAlu op a).extractLsb' 15 1 = Class.alu.bit ∧ effectOf (encodeAlu op a) = a.eff ∧
      dstOf (encodeAlu op a) = a.dst ∧ srcOf (encodeAlu op a) = a.src ∧
      (encodeAlu op a).extractLsb' 0 4 = op ∧
      (encodeAlu op a).extractLsb' 4 3 =
        if hasM a.dst a.src then BitVec.ofBool a.inc ++ a.imm.extractLsb' 0 2
        else a.imm.extractLsb' 0 3 := by
  obtain ⟨hc, he, hd, hs, hl⟩ := fields_of_encoding .alu a _ (encodeAlu op a)
    (alu_word_append Class.alu.bit a.eff.bits a.dst.bits a.src.bits _ op)
  rw [← (alu_low_bits _).2] at hl
  have hop := congrArg (BitVec.extractLsb' 0 4) hl
  have hmid := congrArg (BitVec.extractLsb' 4 3) hl
  rw [(extract_append _ _).1, (extract_append _ _).1] at hop
  rw [(extract_append _ _).2, (extract_append _ _).2] at hmid
  exact ⟨hc, he, hd, hs, hop, hmid⟩

/-- The decoder reads arguments back from a word with their fields, their increment bit and their
immediate. -/
theorem argsOf_eq {c : Class} {w : Word} {a : Args} (he : effectOf w = a.eff) (hd : dstOf w = a.dst)
    (hs : srcOf w = a.src) (hi : incAllowed a = true)
    (hbit : hasM a.dst a.src = true → w.getLsbD 6 = a.inc) (himm : (argsOf c w).imm = a.imm) :
    argsOf c w = a := by
  have hinc : (argsOf c w).inc = a.inc := by
    rw [argsOf_inc, hd, hs]
    cases hm : hasM a.dst a.src
    · have hnone : a.inc = false := by simpa [incAllowed, hm] using hi
      rw [hnone, Bool.false_and]
    · rw [hbit hm, Bool.true_and]
  exact args_eq (by rw [argsOf_eff, he]) (by rw [argsOf_dst, hd]) (by rw [argsOf_src, hs]) hinc himm

/-- An increment bit with an immediate below it, taken apart. -/
theorem increment_above_immediate {n : Nat} {b b' : Bool} {x y : BitVec n}
    (h : BitVec.ofBool b ++ x = BitVec.ofBool b' ++ y) : b = b' ∧ x = y := by
  have hhigh := congrArg (BitVec.extractLsb' n 1) h
  have hlow := congrArg (BitVec.extractLsb' 0 n) h
  rw [(extract_append _ _).2, (extract_append _ _).2] at hhigh
  rw [(extract_append _ _).1, (extract_append _ _).1] at hlow
  exact ⟨BitVec.ofBool_eq_iff_eq.mp hhigh, hlow⟩

/-- The decoder reads the arguments of a COPY back from its word. -/
theorem argsOf_encodeCopy {a : Args} (h : immFits .copy a = true) (hi : incAllowed a = true) :
    argsOf .copy (encodeCopy a) = a := by
  obtain ⟨-, he, hd, hs, hl⟩ := encodeCopy_fields a
  have range := (immFits_iff _ _).mp h
  rw [immWidth] at range
  have imm := argsOf_copy_imm (encodeCopy a)
  rw [hd, hs] at imm
  cases hm : hasM a.dst a.src <;> rw [hm] at hl range imm
  · refine argsOf_eq he hd hs hi (fun ht => absurd ht (by simp [hm])) ?_
    rw [imm, if_neg Bool.false_ne_true, hl]
    exact extendImm_extractLsb' (by decide) (by decide) range
  · rw [if_pos rfl, ← copy_low_bits] at hl
    obtain ⟨hbit, hfield⟩ := increment_above_immediate hl
    refine argsOf_eq he hd hs hi (fun _ => hbit) ?_
    rw [imm, if_pos rfl, hfield]
    exact extendImm_extractLsb' (by decide) (by decide) range

/-- The decoder reads the arguments of an ALU instruction back from its word. -/
theorem argsOf_encodeAlu (op : BitVec 4) {a : Args} (h : immFits .alu a = true)
    (hi : incAllowed a = true) : argsOf .alu (encodeAlu op a) = a := by
  obtain ⟨-, he, hd, hs, -, hl⟩ := encodeAlu_fields op a
  have range := (immFits_iff _ _).mp h
  rw [immWidth] at range
  have imm := argsOf_alu_imm (encodeAlu op a)
  rw [hd, hs] at imm
  cases hm : hasM a.dst a.src <;> rw [hm] at hl range imm
  · refine argsOf_eq he hd hs hi (fun ht => absurd ht (by simp [hm])) ?_
    rw [imm, if_neg Bool.false_ne_true, hl]
    exact extendImm_extractLsb' (by decide) (by decide) range
  · rw [if_pos rfl, ← (alu_low_bits _).1] at hl
    obtain ⟨hbit, hfield⟩ := increment_above_immediate hl
    refine argsOf_eq he hd hs hi (fun _ => hbit) ?_
    rw [imm, if_pos rfl, hfield]
    exact extendImm_extractLsb' (by decide) (by decide) range

/-- The word of a well-formed COPY is no HALT word (R61). -/
theorem encodeCopy_not_halt {a : Args} (h : copyArgsWf a = true) :
    encodeCopy a &&& 0x9FFF#16 ≠ 0#16 := by
  simp only [copyArgsWf, Bool.and_eq_true] at h
  obtain ⟨⟨hfits, hinc⟩, hform⟩ := h
  intro hz
  obtain ⟨-, hd, hs, hl⟩ := (halt_word_iff _).mp hz
  obtain ⟨-, -, hdst, hsrc, -⟩ := encodeCopy_fields a
  have hdpc : a.dst = .pc := Dst.bits_inj (by rw [← hdst, dstOf_bits, hd]; rfl)
  have hspc : a.src = .pc := Src.bits_inj (by rw [← hsrc, srcOf_bits, hs]; rfl)
  have himm : a.imm = 0#16 := by
    rw [← argsOf_encodeCopy hfits hinc, argsOf_copy_imm, hdst, hsrc, hl, hdpc, hspc]
    rfl
  simp [notHaltForm, hdpc, hspc, himm] at hform

/-- The opcode of an operation (R60). -/
def opcode : AluOp → BitVec 4
  | .inv => 0x0#4
  | .and => 0x1#4
  | .or => 0x2#4
  | .xor => 0x3#4
  | .neg => 0x4#4
  | .shl => 0x5#4
  | .shr => 0x6#4
  | .swap => 0x7#4
  | .zeroLsb => 0x8#4
  | .zeroMsb => 0x9#4
  | .add => 0xA#4
  | .sub => 0xB#4
  | .mul => 0xC#4
  | .div => 0xD#4
  | .page => 0xE#4
  | .addOvf => 0xF#4

/-- The decoder reads an operation from its opcode. -/
theorem aluOf_opcode (op : AluOp) (a : Args) : aluOf (opcode op) a = aluInstr op a := by
  cases op <;> rfl

/-- The word of an ALU instruction, by its opcode. -/
theorem encodeWord_aluInstr (op : AluOp) (a : Args) :
    encodeWord (aluInstr op a) = encodeAlu (opcode op) a := by
  rw [← aluOf_opcode, encodeWord_aluOf]

@[simp] theorem wf_aluInstr (op : AluOp) (a : Args) : (aluInstr op a).wf = aluArgsWf a := by
  cases op <;> rfl

/-- Every opcode field is the opcode of an operation. -/
theorem aluOf_is_aluInstr (op : BitVec 4) (a : Args) : ∃ o, aluOf op a = aluInstr o a := by
  obtain ⟨e, he⟩ | ⟨b, hb⟩ | ⟨o, b, hb⟩ := instr_shapes (aluOf op a)
  · exact nomatch (args_aluOf op a).symm.trans (congrArg args? he)
  · exact nomatch (isCopy_aluOf op a).symm.trans (congrArg isCopy hb)
  · have hargs := (args_aluOf op a).symm.trans (congrArg args? hb)
    rw [args_aluInstr] at hargs
    obtain rfl := Option.some.inj hargs
    exact ⟨o, hb⟩

/-- The word of a well-formed instruction decodes to it where its class is known. -/
theorem decodeWord_encodeWord (r : ClassBit) {i : Instr} (h : i.wf = true)
    (hr : isAlu i = true → r = .bit15) : decodeWord r (encodeWord i) = some i := by
  obtain ⟨e, rfl⟩ | ⟨a, rfl⟩ | ⟨op, a, rfl⟩ := instr_shapes i
  · cases r <;> cases e <;> rfl
  · have hwf : copyArgsWf a = true := h
    have hnot := encodeCopy_not_halt hwf
    simp only [copyArgsWf, Bool.and_eq_true] at hwf
    obtain ⟨⟨hfits, hinc⟩, -⟩ := hwf
    have hclass := (classOf_copy_iff r _).mpr (encodeCopy_fields a).1
    simp only [encodeWord, decodeWord, hclass, Option.map_some, instrOf, if_neg hnot,
      argsOf_encodeCopy hfits hinc]
  · obtain rfl := hr (isAlu_aluInstr op a)
    rw [wf_aluInstr, aluArgsWf, Bool.and_eq_true] at h
    obtain ⟨hclass, -, -, -, hop, -⟩ := encodeAlu_fields (opcode op) a
    rw [encodeWord_aluInstr, decodeWord, (classOf_alu_iff _ _).mpr ⟨hclass, rfl⟩, Option.map_some,
      instrOf, hop, argsOf_encodeAlu _ h.1 h.2, aluOf_opcode]

/-- Without decision D1 the word of an ALU instruction is of no class (R62). -/
theorem decodeWord_notAdopted_aluInstr (op : AluOp) (a : Args) :
    decodeWord .notAdopted (encodeWord (aluInstr op a)) = none := by
  have hbit := (encodeAlu_fields (opcode op) a).1
  rw [encodeWord_aluInstr, decodeWord, classOf, hbit, if_neg (by decide)]
  rfl

/-- Settles O1: the decoder reads each field back, and the class bit decides the class. -/
theorem decodeOfEncodeIsTheInstruction : Obligations.DecodeOfEncodeIsTheInstruction := by
  intro r i rest hwf
  refine ⟨fun hr => ?_, fun halu hr => ?_⟩
  · simp [decode, encode, decodeWord_encodeWord r hwf hr]
  · obtain ⟨e, rfl⟩ | ⟨a, rfl⟩ | ⟨op, a, rfl⟩ := instr_shapes i
    · cases halu
    · cases halu
    · simp [decode, encode, hr, decodeWord_notAdopted_aluInstr]

/-! ### What words decode to -/

/-- Where decision D1 is adopted every word has a class. -/
theorem classOf_bit15 (w : Word) : ∃ c, classOf .bit15 w = some c := by
  by_cases h : w.extractLsb' 15 1 = Class.copy.bit
  · exact ⟨.copy, if_pos h⟩
  · exact ⟨.alu, if_neg h⟩

/-- Settles O3: the class decides which words decode, and each branch gives well-formed arguments. -/
theorem everyWordDecodesToWellFormed : Obligations.EveryWordDecodesToWellFormed := by
  refine ⟨fun w => ?_, fun w => ?_, fun r w i h => ?_⟩
  · obtain ⟨c, hc⟩ := classOf_bit15 w
    exact ⟨_, Option.map_eq_some_iff.mpr ⟨c, hc, rfl⟩⟩
  · rw [← BitVec.ofBool_eq_iff_eq, ← extract_class_bit]
    constructor
    · rintro ⟨i, hi⟩
      obtain ⟨c, hc, -⟩ := Option.map_eq_some_iff.mp hi
      cases c with
      | copy => exact (classOf_copy_iff _ _).mp hc
      | alu => exact nomatch ((classOf_alu_iff _ _).mp hc).2
    · intro hbit
      exact ⟨_, Option.map_eq_some_iff.mpr ⟨_, (classOf_copy_iff _ _).mpr hbit, rfl⟩⟩
  · obtain ⟨-, -, rfl⟩ | ⟨hc, hz, rfl⟩ | ⟨-, rfl⟩ := decodeWord_cases h
    · rfl
    · obtain ⟨hfits, hinc⟩ := argsOf_fits .copy w
      have hform : notHaltForm (argsOf .copy w) = true := by
        by_contra hn
        simp only [notHaltForm, Bool.not_eq_true', Bool.and_eq_true, beq_iff_eq,
          Bool.not_eq_false] at hn
        obtain ⟨⟨hd, hs⟩, hi⟩ := hn
        rw [← encodeCopy_argsOf (class_bit_of_classOf hc)] at hz
        simp only [encodeCopy, hd, hs, hi, show hasM .pc .pc = false from rfl, Bool.false_eq_true,
          if_false] at hz
        cases he : (argsOf .copy w).eff <;> rw [he] at hz <;> exact hz rfl
      simp [Instr.wf, copyArgsWf, hfits, hinc, hform]
    · obtain ⟨hfits, hinc⟩ := argsOf_fits .alu w
      obtain ⟨o, ho⟩ := aluOf_is_aluInstr (w.extractLsb' 0 4) (argsOf .alu w)
      simp [ho, aluArgsWf, hfits, hinc]

/-- Settles O4: the HALT test precedes the others, and the four words are of the class COPY. -/
theorem haltWordsAreTheFour : Obligations.HaltWordsAreTheFour := by
  intro r
  refine ⟨fun w => ⟨?_, fun hz => ?_⟩, ?_⟩
  · rintro ⟨i, hdecode, hhalt⟩
    obtain ⟨-, hz, -⟩ | ⟨-, -, rfl⟩ | ⟨-, rfl⟩ := decodeWord_cases hdecode
    · exact hz
    · cases hhalt
    · simp [isHalt] at hhalt
  · have hclass := (classOf_copy_iff r w).mpr ((halt_word_iff w).mp hz).1
    exact ⟨.halt (effectOf w), by simp [decodeWord, hclass, instrOf, hz], rfl⟩
  · cases r <;> exact ⟨rfl, rfl, rfl, rfl⟩

/-- The effect of a decoded instruction is that of its word. -/
theorem effect_of_decodeWord {r : ClassBit} {w : Word} {i : Instr} (h : decodeWord r w = some i) :
    effect i = effectOf w := by
  obtain ⟨-, -, rfl⟩ | ⟨-, -, rfl⟩ | ⟨-, rfl⟩ := decodeWord_cases h
  · rfl
  · exact argsOf_eff .copy w
  · obtain ⟨o, ho⟩ := aluOf_is_aluInstr (w.extractLsb' 0 4) (argsOf .alu w)
    rw [ho, effect_aluInstr, argsOf_eff]

/-- Settles O7: the decoded effect has the code at w[14:13], and no two effects share a code. -/
theorem effectFieldFollowsItsTable : Obligations.EffectFieldFollowsItsTable := by
  intro r w i h p hp hw
  have table : p.2.bits = p.1 := by
    fin_cases hp <;> rfl
  apply Effect.bits_inj
  rw [effect_of_decodeWord h, effectOf_bits, hw, table]

/-- Bit 15 of a word tells the class it has (R51). -/
theorem bit15_of_classOf {r : ClassBit} {w : Word} {c : Class} (h : classOf r w = some c) :
    w.getLsbD 15 = (c == .alu) := by
  have hbit := class_bit_of_classOf h
  rw [extract_class_bit] at hbit
  cases c <;> exact BitVec.ofBool_eq_iff_eq.mp hbit

/-- Settles O10: bit 15 is the class bit, `hasM` chooses the format, and the extension keeps the bits of
the field it takes. -/
theorem aluFormatsSplitTheLowBits : Obligations.AluFormatsSplitTheLowBits := by
  refine ⟨fun r w i h => ?_, fun r w op a h => ?_⟩
  · obtain ⟨hc, -, rfl⟩ | ⟨hc, -, rfl⟩ | ⟨hc, rfl⟩ := decodeWord_cases h
    · rw [bit15_of_classOf hc]
      simp [isAlu, args?]
    · rw [bit15_of_classOf hc]
      simp [isAlu, isCopy]
    · rw [bit15_of_classOf hc]
      simp [isAlu]
  · have halu := congrArg args? (decodeWord_aluInstr h)
    rw [args_aluInstr, args_aluOf] at halu
    obtain rfl := Option.some.inj halu
    rw [argsOf_src, argsOf_dst, argsOf_inc, argsOf_alu_imm]
    refine ⟨fun hm => ?_, fun hm => ?_⟩
    · rw [hm, if_pos rfl, extractLsb'_extendImm (by decide)]
      exact ⟨Bool.true_and _, rfl⟩
    · rw [hm, if_neg Bool.false_ne_true, extractLsb'_extendImm (by decide)]
      exact ⟨Bool.false_and _, rfl⟩

/-- Settles O11: the class and the arguments choose the field, the source how it is extended. -/
theorem immediateIsUnsignedForMemSource : Obligations.ImmediateIsUnsignedForMemSource := by
  intro r w i a h ha
  obtain ⟨c, hc, rfl⟩ := args_of_decodeWord h ha
  rw [argsOf_src, argsOf_dst]
  cases c
  · rw [show w.getLsbD 15 = false from bit15_of_classOf hc, argsOf_copy_imm, hasM]
    refine ⟨fun hs _ => ?_, fun _ hn => absurd hn (by decide), fun hs hd _ => ?_,
      fun _ _ hn => absurd hn (by decide), fun hs hd _ => ?_, fun _ _ hn => absurd hn (by decide)⟩
    · rw [if_pos (by simp [hs]), extendImm_toInt_of_mem (by decide) hs]
    · rw [if_pos (by simp [hs, hd]), extendImm_toInt_of_not_mem (by decide) hs]
    · rw [if_neg (by simp [hs, hd]), extendImm_toInt_of_not_mem (by decide) hs]
  · rw [show w.getLsbD 15 = true from bit15_of_classOf hc, argsOf_alu_imm, hasM]
    refine ⟨fun _ hn => absurd hn (by decide), fun hs _ => ?_, fun _ _ hn => absurd hn (by decide),
      fun hs hd _ => ?_, fun _ _ hn => absurd hn (by decide), fun hs hd _ => ?_⟩
    · rw [if_pos (by simp [hs]), extendImm_toInt_of_mem (by decide) hs]
    · rw [if_pos (by simp [hs, hd]), extendImm_toInt_of_not_mem (by decide) hs]
    · rw [if_neg (by simp [hs, hd]), extendImm_toInt_of_not_mem (by decide) hs]

/-- Settles O12: the decoder evaluated on the six words. -/
theorem writtenWordsDecode : Obligations.WrittenWordsDecode :=
  ⟨rfl, rfl, rfl, rfl, rfl, rfl⟩

/-! ### The assembler (R64 to R69) -/

/-- Accepted arguments fit the ranges of their class and have only a legal increment (R53, R56). -/
theorem arguments_fit {names : Names} {c : Class} {ts : List Chars} {a : Args}
    (h : arguments? names c ts = some a) : immFits c a = true ∧ incAllowed a = true := by
  simp only [arguments?] at h
  split at h
  · split at h
    · split at h
      · next hok =>
        obtain ⟨-, hfits, hinc⟩ := hok
        obtain rfl := Option.some.inj h
        exact ⟨hfits, hinc⟩
      · cases h
    · cases h
  · cases h

/-- An accepted statement is a well-formed instruction. -/
theorem statement_wf {names : Names} {ts : List Chars} {i : Instr}
    (h : statement? names ts = some i) : i.wf = true := by
  unfold statement? at h
  split at h
  case h_1 =>
    obtain ⟨e, -, rfl⟩ := Option.map_eq_some_iff.mp h
    rfl
  case h_2 =>
    obtain ⟨a, ha, rfl⟩ := Option.map_eq_some_iff.mp h
    obtain ⟨hfits, hinc⟩ := arguments_fit ha
    split
    · next hform => simp [Instr.wf, copyArgsWf, hfits, hinc, hform]
    · rfl
  case h_3 =>
    split at h
    · split at h
      · next a _ ha =>
        obtain rfl := Option.some.inj h
        obtain ⟨hfits, hinc⟩ := arguments_fit ha
        obtain ⟨o, ho⟩ := aluOf_is_aluInstr _ a
        rw [ho, wf_aluInstr, aluArgsWf, hfits, hinc]
        rfl
      · cases h
    · cases h
  case h_4 => cases h

/-- Settles O13: by induction on the lines, each accepted statement being well formed. -/
theorem assembledInstructionsAreWellFormed : Obligations.AssembledInstructionsAreWellFormed := by
  intro names lines
  induction lines generalizing names with
  | nil =>
    intro is h
    obtain rfl := Option.some.inj h
    simp
  | cons line rest ih =>
    intro is h
    unfold assembleFrom at h
    split at h
    · exact ih names is h
    · split at h
      · exact ih _ is h
      · cases h
    · split at h
      · next i others hi hothers =>
        obtain rfl := Option.some.inj h
        exact List.forall_mem_cons.mpr ⟨statement_wf hi, ih names others hothers⟩
      · cases h

/-- Settles O14: the assembler evaluated on the text. -/
theorem sourceExamplesAssemble : Obligations.SourceExamplesAssemble := by
  unfold Obligations.SourceExamplesAssemble
  decide

end Sys2Proof.Encoding

/-! ## What every step keeps (10_state.md, 20_memory.md section 1) -/

namespace Sys2Proof.WholeMachine

open Sys2Proof.Machine Sys2Proof.Safety Sys2Proof.CommonOperands

/-! ### Everything an instruction can do -/

/-- With the source space local the source read is recorded nowhere. -/
theorem srcEvents_local (a : Args) {s : State} (h : s.fromSpace = .localMem) : srcEvents a s = [] := by
  unfold srcEvents
  split <;> simp [readEvents, h]

/-- With the destination space local the destination operand read is recorded nowhere. -/
theorem dstEvents_local (a : Args) {s : State} (h : s.toSpace = .localMem) : dstEvents a s = [] := by
  unfold dstEvents
  split <;> simp [readEvents, h]

/-- With the destination space local the store is recorded nowhere. -/
theorem storeEvents_local (a : Args) (res : Word) {s : State} (h : s.toSpace = .localMem) :
    storeEvents a res s = [] := by
  unfold storeEvents
  split <;> simp [h]

/-- What an instruction that answers a next state did: it halted; its effect failed and it only advanced
`pc`, or wrote the flags as well (FLAGS_ON_SKIP); its effect held and it stored one result; or it was a
COPY of non-zero width. -/
inductive Ran (i : Instr) (s : State) : State → Prop where
  | halted (e : Effect) (hi : i = .halt e) (heff : effectHolds e s.flags = true) : Ran i s s.setHalt
  | skipped (heff : effectHolds (effect i) s.flags = false) : Ran i s s.advancePc
  | flagged (evs : List BankedEvent) (f : Flags) (o : Word) (hskip : s.cfg.flagsOnSkip = true)
      (hevs : s.fromSpace = .localMem → s.toSpace = .localMem → evs = []) :
      Ran i s ((logged s evs).setAlu f o).advancePc
  | stored (a : Args) (res : Word) (evs : List BankedEvent) (u : State) (f : Flags) (o : Word)
      (hargs : args? i = some a) (heff : effectHolds (effect i) s.flags = true)
      (hwidth : isCopy i = true → s.copyWidth = 0#6)
      (hevs : s.fromSpace = .localMem → s.toSpace = .localMem → evs = [])
      (hstore : storeResult a.dst res (moveIncrement a (logged s evs)) = .ok u) :
      Ran i s ((nextPc a.dst u).setAlu f o)
  | moved (a : Args) (u : State) (hi : i = .copy a) (heff : effectHolds a.eff s.flags = true)
      (hwidth : s.copyWidth ≠ 0#6) (hwords : copyWords a s.copyWidth.toNat 0#16 s = .ok u) :
      Ran i s (nextPc a.dst u)

/-- A HALT that answers a next state halted or was skipped. -/
theorem ran_halt {e : Effect} {s t : State} (h : exec (.halt e) s = .next t) : Ran (.halt e) s t := by
  change execHalt e s = .next t at h
  unfold execHalt at h
  split at h
  · next heff =>
    obtain rfl := Host.Outcome.next.inj h
    exact .halted e rfl heff
  · next heff =>
    obtain rfl := Host.Outcome.next.inj h
    exact .skipped (Bool.eq_false_iff.mpr heff)

/-- A COPY that answers a next state was skipped, stored its source value, or moved several words. -/
theorem ran_copy {a : Args} {s t : State} (h : exec (.copy a) s = .next t) : Ran (.copy a) s t := by
  obtain ⟨heff, rfl⟩ | ⟨heff, hwidth, hone⟩ | ⟨heff, hwidth, -, -, u, hwords, rfl⟩ := execCopy_next h
  · exact .skipped heff
  · obtain ⟨-, u, hstore, rfl⟩ := copyOne_store hone
    exact .stored a _ _ u (nextPc a.dst u).flags (nextPc a.dst u).ovf rfl heff (fun _ => hwidth)
      (fun hfrom _ => srcEvents_local a hfrom) hstore
  · exact .moved a u rfl heff hwidth hwords

/-- An ALU instruction that answers a next state was skipped, with or without writing the flags, or
stored the result of its operation. -/
theorem ran_aluInstr {op : AluOp} {a : Args} {s t : State} (h : exec (aluInstr op a) s = .next t) :
    Ran (aluInstr op a) s t := by
  have hevs : s.fromSpace = .localMem → s.toSpace = .localMem →
      (srcEvents a s ++ if twoOperand op then dstEvents a s else []) = [] := fun hfrom hto => by
    simp [srcEvents_local a hfrom, dstEvents_local a hto]
  obtain ⟨operate, hexec, hoperate⟩ := exec_aluInstr op a s
  rw [hexec] at h
  obtain ⟨heff, -, rfl⟩ | ⟨-, hskip, o, s1, hread, rfl⟩ | ⟨heff, o, s1, hread, hfinish⟩ := execAlu_next h
  · exact .skipped (by rwa [effect_aluInstr])
  · obtain ⟨-, -, hp⟩ := (hoperate _).mp hread
    obtain ⟨rfl, rfl⟩ := Prod.mk.inj hp
    exact .flagged _ _ _ hskip hevs
  · obtain ⟨-, -, hp⟩ := (hoperate _).mp hread
    obtain ⟨rfl, rfl⟩ := Prod.mk.inj hp
    obtain ⟨u, hstore, rfl⟩ := finishAlu_store hfinish
    exact .stored a _ _ u _ _ (args_aluInstr op a) (by rwa [effect_aluInstr])
      (fun hc => absurd hc (by simp)) hevs hstore

/-- Everything an instruction that answers a next state can have done. -/
theorem exec_ran {i : Instr} {s t : State} (h : exec i s = .next t) : Ran i s t := by
  obtain ⟨e, rfl⟩ | ⟨a, rfl⟩ | ⟨op, a, rfl⟩ := instr_shapes i
  · exact ran_halt h
  · exact ran_copy h
  · exact ran_aluInstr h

@[simp] theorem nextPc_cr (d : Dst) (s : State) : (nextPc d s).cr = s.cr := by
  cases d <;> rfl

@[simp] theorem nextPc_mem (d : Dst) (s : State) : (nextPc d s).mem = s.mem := by
  cases d <;> rfl

@[simp] theorem nextPc_banked (d : Dst) (s : State) : (nextPc d s).banked = s.banked := by
  cases d <;> rfl

@[simp] theorem nextPc_cfg (d : Dst) (s : State) : (nextPc d s).cfg = s.cfg := by
  cases d <;> rfl

/-- `pc` advances where the destination is not `0.reg` (R80). -/
theorem nextPc_pc {d : Dst} (hd : d ≠ .pc) (s : State) : (nextPc d s).pc = s.pc + 1#16 := by
  cases d
  case pc => exact absurd rfl hd
  all_goals rfl

/-! ### The invariant -/

/-- The invariant is about local memory, the control register and the parameters only. -/
theorem invariant_of_parts {s t : State} (h : Invariant s) (hcfg : t.cfg = s.cfg)
    (hwf : Memory.wf s.mem → Memory.wf t.mem)
    (hcells : (∀ p ∈ s.mem, p.1 < 2 * s.cfg.localWords) → ∀ p ∈ t.mem, p.1 < 2 * s.cfg.localWords)
    (hcr : t.cr = s.cr ∨ t.cr &&& 0xFC00#16 = 0#16) : Invariant t := by
  obtain ⟨wf, cells, reserved, positive, bounded⟩ := h
  refine ⟨hwf wf, by rw [hcfg]; exact hcells cells, ?_, by rwa [hcfg], by rwa [hcfg]⟩
  obtain hcr | hcr := hcr
  · rwa [hcr]
  · exact hcr

/-- The increment and the store of one result keep the invariant. -/
theorem store_keeps_invariant {a : Args} {res : Word} {s u : State} {evs : List BankedEvent}
    (h : Invariant s) (hstore : storeResult a.dst res (moveIncrement a (logged s evs)) = .ok u) :
    Invariant (nextPc a.dst u) := by
  obtain ⟨-, hcr, -, -, hcfg, -, -⟩ := store_frame hstore
  obtain ⟨himp, hmem⟩ := store_memory hstore
  have hreserved : (nextPc a.dst u).cr = s.cr ∨ (nextPc a.dst u).cr &&& 0xFC00#16 = 0#16 := by
    rw [hcr]
    split
    · exact .inr (mask_reserved res)
    · exact .inl rfl
  obtain ⟨hm, -⟩ | ⟨r, hd, hto, hm⟩ := hmem
  · exact invariant_of_parts h hcfg (hm ▸ id) (hm ▸ id) hreserved
  · exact invariant_of_parts h hcfg (fun wf => hm ▸ writeWord_wf wf _ _)
      (fun cells => hm ▸ writeWord_cells (himp r hd hto) cells) hreserved

/-- Whatever an instruction did keeps the invariant. -/
theorem ran_keeps_invariant {i : Instr} {s t : State} (h : Invariant s) (hran : Ran i s t) :
    Invariant t := by
  cases hran with
  | halted e => exact invariant_of_parts h rfl id id (.inr (mask_reserved _))
  | skipped => exact h
  | flagged => exact h
  | stored a res evs u f o _ _ _ _ hstore => exact store_keeps_invariant h hstore
  | moved a u _ _ _ hwords =>
    have keeps := copyWords_keeps hwords
    exact invariant_of_parts h ((nextPc_cfg _ _).trans keeps.cfg)
      (by rw [nextPc_mem]; exact keeps.canonical) (by rw [nextPc_mem]; exact keeps.cells)
      (by rw [nextPc_cr]; exact keeps.crMasked)

/-- Settles O51: a halted processor keeps its state, and each thing an instruction can do keeps the
invariant. -/
theorem everyStepKeepsTheInvariant : Obligations.EveryStepKeepsTheInvariant := by
  intro s t h hstep
  obtain ⟨-, rfl⟩ | ⟨-, -, i, -, hexec⟩ := step_next hstep
  · exact h
  · exact ran_keeps_invariant h (exec_ran hexec)

/-- Settles O50: local memory is empty at reset. -/
theorem resetMeetsTheInvariant : Obligations.ResetMeetsTheInvariant :=
  ⟨⟨List.Pairwise.nil, by simp [State.reset]⟩, by simp [State.reset], rfl, by decide, by decide⟩

/-! ### The record of banked accesses and the parameters -/

/-- F and T choose the spaces (10_state.md R22). -/
theorem space_of_bits (s : State) :
    (s.fromSpace = .banked ↔ s.cr.getLsbD 1 = true) ∧ (s.toSpace = .banked ↔ s.cr.getLsbD 0 = true) := by
  have h (b : Bool) : spaceOf b = .banked ↔ b = true := by cases b <;> simp [spaceOf]
  exact ⟨h _, h _⟩

/-- A cleared bit chooses the local space. -/
theorem local_of_clear (b : Bool) (h : b = false) : spaceOf b = .localMem := by
  rw [h]
  rfl

/-- Settles O52: each thing an instruction can do appends its accesses to the record. -/
theorem bankedRecordOnlyGrows : Obligations.BankedRecordOnlyGrows := by
  refine ⟨space_of_bits, fun i s t h => ?_⟩
  have hfrom : s.cr.getLsbD 1 = false → s.fromSpace = .localMem := local_of_clear _
  have hto : s.cr.getLsbD 0 = false → s.toSpace = .localMem := local_of_clear _
  cases exec_ran h with
  | halted e => exact ⟨rfl, List.prefix_rfl, fun _ _ => rfl⟩
  | skipped => exact ⟨rfl, List.prefix_rfl, fun _ _ => rfl⟩
  | flagged evs f o _ hevs =>
    exact ⟨rfl, List.prefix_append _ _, fun hF hT => by simp [hevs (hfrom hF) (hto hT)]⟩
  | stored a res evs u f o _ _ _ hevs hstore =>
    obtain ⟨-, -, -, hbanked, hcfg, -, -⟩ := store_frame hstore
    refine ⟨hcfg, ?_, fun hF hT => ?_⟩
    · rw [setAlu_banked, hbanked, List.append_assoc]
      exact List.prefix_append _ _
    · rw [setAlu_banked, hbanked, hevs (hfrom hF) (hto hT), storeEvents_local a res (hto hT)]
      simp
  | moved a u _ _ _ hwords =>
    have keeps := copyWords_keeps hwords
    rw [nextPc_cfg, nextPc_banked]
    exact ⟨keeps.cfg, keeps.banked, fun hF hT => keeps.noBanked (hfrom hF) (hto hT)⟩

/-! ### The flags, `pc`, the control register and local memory -/

/-- Settles O53: HALT and COPY keep the flags, and so does an ALU instruction whose effect fails. -/
theorem onlyAluInstructionsWriteFlags : Obligations.OnlyAluInstructionsWriteFlags := by
  intro s t hskip hstep hchanged
  have differs (hf : t.flags = s.flags) (ho : t.ovf = s.ovf) : False := hchanged.elim (· hf) (· ho)
  obtain ⟨-, rfl⟩ | ⟨-, -, i, hdecode, hexec⟩ := step_next hstep
  · exact (differs rfl rfl).elim
  · refine ⟨i, hdecode, ?_⟩
    obtain ⟨e, rfl⟩ | ⟨a, rfl⟩ | ⟨op, a, rfl⟩ := instr_shapes i
    · cases ran_halt hexec with
      | halted => exact (differs rfl rfl).elim
      | skipped => exact (differs rfl rfl).elim
      | flagged _ _ _ hon => simp [hskip] at hon
      | stored _ _ _ _ _ _ hargs => cases hargs
      | moved _ _ hi => cases hi
    · obtain ⟨hflags, hovf⟩ := execCopy_keeps_flags hexec
      exact (differs hflags hovf).elim
    · refine ⟨isAlu_aluInstr op a, ?_⟩
      by_contra heff
      cases ran_aluInstr hexec with
      | halted _ hi => exact nomatch (args_aluInstr op a).symm.trans (congrArg args? hi)
      | skipped => exact differs rfl rfl
      | flagged _ _ _ hon => simp [hskip] at hon
      | stored _ _ _ _ _ _ _ hheld => exact heff hheld
      | moved _ _ hi => exact nomatch (isCopy_aluInstr op a).symm.trans (congrArg isCopy hi)

/-- An instruction whose destination is not `0.reg` advances `pc`. -/
theorem exec_advances_pc {i : Instr} {a : Args} {s t : State} (hargs : args? i = some a)
    (hd : a.dst ≠ .pc) (h : exec i s = .next t) : t.pc = s.pc + 1#16 := by
  cases exec_ran h with
  | halted e hi => simp [hi, args?] at hargs
  | skipped => rfl
  | flagged => rfl
  | stored b res evs u f o hb _ _ _ hstore =>
    obtain rfl := Option.some.inj (hargs.symm.trans hb)
    obtain ⟨hpc, -⟩ := store_frame hstore
    rw [setAlu_pc, hpc, if_neg hd]
  | moved b u hi _ _ hwords =>
    subst hi
    obtain rfl := Option.some.inj hargs
    rw [nextPc_pc hd, (copyWords_keeps hwords).pc hd]

/-- Settles O55: the store to `0.reg` is the last write of `pc`, and a HALT that holds writes none. -/
theorem pcAdvancesUnlessStoredTo : Obligations.PcAdvancesUnlessStoredTo := by
  refine ⟨fun i a s t hargs hd h => exec_advances_pc hargs hd h, fun a s t hd heff hwidth h => ?_,
    fun op a s t hd heff h => ?_, fun e s t heff h => ?_⟩
  · obtain ⟨hfails, -⟩ | ⟨-, -, hone⟩ | ⟨-, hwide, -⟩ := execCopy_next h
    · simp [heff] at hfails
    · obtain ⟨-, u, hstore, rfl⟩ := copyOne_store hone
      rw [(store_frame hstore).1, if_pos hd]
    · exact absurd hwidth hwide
  · obtain ⟨evs, hfinish⟩ := exec_aluInstr_held heff h
    obtain ⟨u, hstore, rfl⟩ := finishAlu_store hfinish
    rw [setAlu_pc, (store_frame hstore).1, if_pos hd]
  · have held : exec (.halt e) s = .next s.setHalt := if_pos heff
    rw [← Host.Outcome.next.inj (held.symm.trans h)]
    rfl

/-- Setting the halt bit halts. -/
theorem setHalt_halted (s : State) : s.setHalt.halted = true := by
  simp [State.halted, State.setHalt, crMask]

/-- Settles O56: of what an instruction can do, only halting and a store to `4.reg` change the control
register. -/
theorem twoWaysIntoTheHaltedState : Obligations.TwoWaysIntoTheHaltedState := by
  intro s t hrunning hstep hcr
  obtain ⟨hhalted, -⟩ | ⟨-, -, i, hdecode, hexec⟩ := step_next hstep
  · simp [hrunning] at hhalted
  · refine ⟨i, hdecode, ?_⟩
    cases exec_ran hexec with
    | halted e hi heff =>
      subst hi
      exact ⟨heff, .inl ⟨rfl, setHalt_halted s, rfl⟩⟩
    | skipped => exact absurd rfl hcr
    | flagged => exact absurd rfl hcr
    | stored a res evs u f o hargs heff _ _ hstore =>
      have hd : a.dst = .cr := by
        by_contra hn
        rw [setAlu_cr, (store_frame hstore).2.1, if_neg hn] at hcr
        exact hcr rfl
      exact ⟨heff, .inr ⟨a, hargs, hd, exec_advances_pc hargs (by simp [hd]) hexec⟩⟩
    | moved a u hi heff _ hwords =>
      subst hi
      have hd : a.dst = .cr := by
        by_contra hn
        exact hcr ((nextPc_cr _ _).trans ((copyWords_keeps hwords).cr hn))
      exact ⟨heff, .inr ⟨a, rfl, hd, exec_advances_pc rfl (by simp [hd]) hexec⟩⟩

/-- Settles O57: only the store writes local memory, at the address of its destination. -/
theorem oneInstructionWritesOneWord : Obligations.OneInstructionWritesOneWord := by
  intro i s t w hwf h hwidth hword
  cases exec_ran h with
  | halted e => exact absurd rfl hword
  | skipped => exact absurd rfl hword
  | flagged => exact absurd rfl hword
  | stored a res evs u f o hargs heff _ _ hstore =>
    obtain ⟨-, ⟨hmem, -⟩ | ⟨r, hd, hto, hmem⟩⟩ := store_memory hstore
    · exact absurd (by rw [setAlu_word, State.word, hmem, State.word]) hword
    · refine ⟨heff, hto, a, r, hargs, hd, ?_⟩
      by_contra hne
      refine hword ?_
      rw [setAlu_word, State.word, hmem, readWord_writeWord hwf, if_neg hne, State.word]
  | moved a u hi _ hwide =>
    subst hi
    exact absurd (hwidth rfl) hwide

end Sys2Proof.WholeMachine

/-! ## Local and banked accesses (20_memory.md) -/

namespace Sys2Proof.MemoryAccess

open Sys2Proof.Machine Sys2Proof.Safety

/-- An address is unimplemented when it is LOCAL_WORDS or above (R41). -/
theorem not_implemented_iff (s : State) (a : Word) :
    s.implemented a = false ↔ s.cfg.localWords ≤ a.toNat := by
  simp [State.implemented]

/-- Settles O15: `writeData_ok` and the read-after-write law of local memory. -/
theorem writeChangesOneWord : Obligations.WriteChangesOneWord := by
  intro s u a v hwf
  refine ⟨fun h => ?_, fun h => ?_⟩
  · obtain ⟨-, rfl⟩ := (writeData_ok _ _ _ _ _).mp h
    exact ⟨fun w => readWord_writeWord hwf a v w, writeWord_wf hwf a v, rfl⟩
  · obtain ⟨-, rfl⟩ := (writeData_ok _ _ _ _ _).mp h
    rfl

/-- Settles O16: each access tests its address against LOCAL_WORDS. -/
theorem unimplementedLocalAccessIsStuck : Obligations.UnimplementedLocalAccessIsStuck := by
  intro s a v
  refine ⟨?_, ?_, ?_⟩
  · rw [← not_implemented_iff]
    cases h : s.implemented s.pc <;> simp [fetchWord, h]
  · rw [← not_implemented_iff]
    cases h : s.implemented a <;> simp [readData, h]
  · rw [← not_implemented_iff]
    cases h : s.implemented a <;> simp [writeData, h]

/-- Settles O17: the banked branch of a read. -/
theorem bankedReadReturnsTheDraw : Obligations.BankedReadReturnsTheDraw := fun _ _ => rfl

end Sys2Proof.MemoryAccess

/-! ## The step and the state at reset (40_common_operands.md R70 to R72; 10_state.md R28) -/

namespace Sys2Proof.StepAndReset

open Sys2Proof.Machine Sys2Proof.Safety

/-- The decoder of a sequence of words reads its first word. -/
theorem decode_cons (r : ClassBit) (w : Word) (rest : List Word) :
    (∀ i, decode r (w :: rest) = .ok (i, rest) ↔ decodeWord r w = some i) ∧
      ((∃ e, decode r (w :: rest) = .error e) ↔ decodeWord r w = none) := by
  cases h : decodeWord r w <;> simp [decode, h]

/-- A running processor at an implemented `pc` runs what its word decodes to, and refuses a word that
decodes to nothing. -/
theorem step_running {s : State} (hrun : s.halted = false) (himp : s.implemented s.pc = true) :
    (∀ i, decodeWord s.cfg.classBit (s.word s.pc) = some i → step s = exec i s) ∧
      (decodeWord s.cfg.classBit (s.word s.pc) = none →
        step s = .refused (.unknownClass (s.word s.pc))) :=
  ⟨fun i h => by simp [step, hrun, fetchWord, himp, h],
    fun h => by simp [step, hrun, fetchWord, himp, h]⟩

/-- Settles O18: a running processor fetches at an implemented address and decodes the word. -/
theorem stepRunsTheDecodedInstruction : Obligations.StepRunsTheDecodedInstruction := by
  intro s rest hrun himp
  obtain ⟨hsome, hnone⟩ := decode_cons s.cfg.classBit (s.word s.pc) rest
  obtain ⟨hruns, hrefused⟩ := step_running hrun himp
  exact ⟨fun i hi => hruns i ((hsome i).mp hi), fun e he => hrefused (hnone.mp ⟨e, he⟩)⟩

/-- Settles O19: the fetch faults. -/
theorem stepIsStuckAtUnimplementedPc : Obligations.StepIsStuckAtUnimplementedPc := by
  intro s hrun himp
  simp [step, hrun, fetchWord, himp]

/-- A step of a halted processor answers its own state (R71). -/
theorem step_halted {s : State} (h : s.halted = true) : step s = .next s := if_pos h

/-- Settles O20: by induction on the number of steps. -/
theorem haltedProcessorKeepsItsState : Obligations.HaltedProcessorKeepsItsState := by
  intro s k h
  have hstep : Sys2Proof.core.step s = .next s := step_halted h
  induction k with
  | zero => rfl
  | succ k ih => simp only [Host.Core.run, hstep, ih]

/-- Settles O21: the launch values. -/
theorem resetLeavesTheLaunchState : Obligations.ResetLeavesTheLaunchState :=
  ⟨rfl, rfl, rfl, rfl, fun r => by cases r <;> rfl, rfl, rfl, fun _ => by
    simp [State.word, State.reset, readWord, readByte, unlistedByte], rfl, rfl⟩

end Sys2Proof.StepAndReset

/-! ## The effect, HALT and COPY of one word (40_common_operands.md R73 to R80; 41_copy.md) -/

namespace Sys2Proof.EffectAndCopy

open Sys2Proof.Machine Sys2Proof.Safety

/-- The four effect tests (R73). -/
theorem effectHolds_iff (f : Flags) :
    (effectHolds .ifZero f = true ↔ f.z = true) ∧ (effectHolds .ifNotZero f = true ↔ f.z = false) ∧
      (effectHolds .ifNegative f = true ↔ f.n = true) ∧ effectHolds .always f = true := by
  simp [effectHolds]

/-- An instruction whose effect fails only advances `pc`, an ALU instruction without FLAGS_ON_SKIP. -/
theorem exec_skipped {i : Instr} {s : State} (heff : effectHolds (effect i) s.flags = false)
    (hskip : isAlu i = true → s.cfg.flagsOnSkip = false) : exec i s = .next s.advancePc := by
  obtain ⟨e, rfl⟩ | ⟨a, rfl⟩ | ⟨op, a, rfl⟩ := instr_shapes i
  · exact if_neg (Bool.eq_false_iff.mp heff)
  · exact if_neg (Bool.eq_false_iff.mp heff)
  · obtain ⟨operate, hexec, -⟩ := exec_aluInstr op a s
    rw [effect_aluInstr] at heff
    simp [hexec, execAlu, heff, hskip (isAlu_aluInstr op a)]

/-- Settles O22: the four tests, and what the failing branches leave. -/
theorem failedEffectOnlyAdvancesPc : Obligations.FailedEffectOnlyAdvancesPc := by
  refine ⟨effectHolds_iff, fun i s hfails hskip => exec_skipped ?_ hskip⟩
  obtain ⟨he, hz⟩ | ⟨he, hz⟩ | ⟨he, hn⟩ := hfails
  · simp [he, effectHolds, hz]
  · simp [he, effectHolds, hz]
  · simp [he, effectHolds, hn]

/-- Settles O23: the operands are read, and what was computed of them is written but not stored. -/
theorem flagsOnSkipWritesOnlyFlags : Obligations.FlagsOnSkipWritesOnlyFlags := by
  intro op a s heff hskip hsource hdest
  obtain ⟨operate, hexec, hoperate⟩ := exec_aluInstr op a s
  have hread := (hoperate _).mpr ⟨hsource, hdest, rfl⟩
  simp only [hexec, execAlu, heff, Bool.false_eq_true, if_false, hskip, if_true, hread,
    List.append_assoc]
  rfl

/-- With bits 15:10 zero, setting the halt bit is all that `setHalt` does. -/
theorem setHalt_eq {s : State} (h : s.cr &&& 0xFC00#16 = 0#16) :
    s.setHalt = { s with cr := s.cr ||| 0x0200#16 } := by
  have hkeep : s.cr &&& crMask = s.cr := by
    calc s.cr &&& crMask = (s.cr &&& crMask) ||| (s.cr &&& 0xFC00#16) := by rw [h, BitVec.or_zero]
      _ = s.cr &&& (crMask ||| 0xFC00#16) := BitVec.and_or_distrib_left.symm
      _ = s.cr := BitVec.and_allOnes
  have hbit : (0x0200#16 : Word) &&& crMask = 0x0200#16 := rfl
  simp only [State.setHalt, State.setCr, BitVec.and_or_distrib_right, hkeep, hbit]

/-- Settles O24: the two branches of HALT. -/
theorem haltSetsTheHaltBit : Obligations.HaltSetsTheHaltBit := by
  intro e s hreserved
  refine ⟨fun heff => ⟨?_, WholeMachine.setHalt_halted s⟩, fun heff => ?_⟩
  · rw [← setHalt_eq hreserved]
    exact if_pos heff
  · exact if_neg (Bool.eq_false_iff.mp heff)

/-- A COPY of width 0 whose effect holds copies one word. -/
theorem exec_copy_one {a : Args} {s : State} (heff : effectHolds a.eff s.flags = true)
    (hwidth : s.copyWidth = 0#6) : exec (.copy a) s = toOutcome (copyOne a s) := by
  change execCopy a s = _
  rw [execCopy, if_pos heff, if_pos hwidth]

/-- Settles O25: a COPY of one word that is ready completes, and what it leaves. -/
theorem copyStoresTheSourceValue : Obligations.CopyStoresTheSourceValue := by
  intro a s hready hwidth
  obtain ⟨u, hu⟩ := copyOne_completes hready
  obtain ⟨heff, hwf, -, -⟩ := hready
  obtain ⟨-, hstored, hflags, hovf⟩ := copyOne_ok hwf hu
  exact ⟨u, by rw [exec_copy_one heff hwidth, hu]; rfl, hstored, hflags, hovf⟩

/-- Settles O26: the tests of the width, the mode and the increment, in this order. -/
theorem copyWidthRefusals : Obligations.CopyWidthRefusals := by
  refine ⟨fun _ => rfl, fun a s heff hwidth => ?_⟩
  have hwide : s.copyWidth ≠ 0#6 := hwidth
  refine ⟨fun hmode => ?_, fun hmode hinc => ?_, fun hmode hinc x => ?_⟩
  · simp [exec, execCopy, heff, hwide, hmode]
  · simp [exec, execCopy, heff, hwide, hmode, hinc]
  · cases hc : copyWide a s <;> simp [exec, execCopy, heff, hwide, hmode, hinc, hc, toOutcome]

/-- Settles O58: the push leaves the word at the address its register then holds, the pop reads it there
and moves the register back. -/
theorem popUndoesPush : Obligations.PopUndoesPush := by
  intro s p q v hwf hpq hwidth hfrom hto himp
  have pushReady : ReadyOne ⟨.always, .mem p, .val, true, v⟩ s := by
    refine ⟨rfl, hwf, by simp [SourceReadable], fun r hr _ => ?_⟩
    obtain rfl := Dst.mem.inj hr
    exact himp
  obtain ⟨m, hpush, pushed, pushFlags, -⟩ := copyStoresTheSourceValue _ s pushReady hwidth
  have crSame : m.cr = s.cr := pushed.cr
  have pointer : m.reg p = s.reg p - 1#16 := by simp [pushed.reg, regAfter]
  have stacked : m.word (s.reg p - 1#16) = v := by
    simp [pushed.word, wordAfter, hto, storeAddr, srcVal]
  have popFrom : m.fromSpace = .localMem := by rw [← hfrom, State.fromSpace, crSame]; rfl
  have popReady : ReadyOne ⟨.always, .reg q, .mem p, true, 0#16⟩ m := by
    refine ⟨rfl, pushed.canonical, fun r hr _ => ?_, by simp [Storable]⟩
    obtain rfl := Src.mem.inj hr
    rw [pointer, BitVec.add_zero, State.implemented, pushed.cfg]
    exact himp
  obtain ⟨u, hpop, popped, popFlags, -⟩ := copyStoresTheSourceValue _ m popReady
    (by rw [← hwidth, State.copyWidth, crSame]; rfl)
  refine ⟨m, u, hpush, hpop, ?_, ?_, popFlags.trans pushFlags, ?_⟩
  · simp [popped.reg, regAfter, Dst.isMem, hpq.symm, pointer]
  · simp [popped.reg, regAfter, srcVal, valueAt, popFrom, pointer, stacked]
  · simp [popped.pc, pushed.pc, BitVec.add_assoc]

end Sys2Proof.EffectAndCopy

/-! ## The sixteen ALU operations (42_alu.md) -/

namespace Sys2Proof.Alu

open Sys2Proof.Machine Sys2Proof.Safety

/-! ### An operation whose output is known -/

/-- The flags of an output with the given result, carry and overflow (R101). -/
theorem flags_eq {o : AluOut} {res : Word} {c v : Bool} (hres : o.result = res) (hc : o.c = c)
    (hv : o.v = v) : o.flags = { z := decide (res = 0#16), n := res.msb, c := c, v := v } := by
  subst hres hc hv
  rfl

/-- A one-operand instruction leaves the output its operation has on the source value. -/
theorem unary_done {f : Word → AluOut} {a : Args} {s : State} (h : ReadyOne a s) {o : AluOut}
    (ho : f (srcVal a s) = o) : ∃ t, execAlu (unary f) a s = .next t ∧
      AluDone a (srcEvents a s) o.result o.ovf o.c o.v s t := by
  subst ho
  obtain ⟨t, hexec, hstored, hovf, hflags⟩ := execAlu_unary (f := f) h
  exact ⟨t, hexec, hstored, hovf, hflags.trans (flags_eq rfl rfl rfl)⟩

/-- A two-operand instruction leaves the output its operation has on the destination operand and the
source value. -/
theorem binary_done {f : Word → Word → AluOut} {a : Args} {s : State} (h : ReadyTwo a s) {o : AluOut}
    (ho : f (dstVal a s) (srcVal a s) = o) : ∃ t, execAlu (binary f) a s = .next t ∧
      AluDone a (srcEvents a s ++ dstEvents a s) o.result o.ovf o.c o.v s t := by
  subst ho
  obtain ⟨t, hexec, hstored, hovf, hflags⟩ := execAlu_binary (f := f) h
  exact ⟨t, hexec, hstored, hovf, hflags.trans (flags_eq rfl rfl rfl)⟩

/-! ### The bit and byte operations -/

/-- Settles O31: flipping every bit subtracts from all ones. -/
theorem invFlipsEveryBit : Obligations.InvFlipsEveryBit := by
  intro a s h
  have result : invOut (srcVal a s) = plainOut (0xFFFF#16 - srcVal a s) :=
    congrArg plainOut (BitVec.allOnes_sub_eq_not _).symm
  exact (unary_done h result :)

/-- Settles O32: the result is the conjunction, with overflow register, carry and overflow 0. -/
theorem andStoresTheConjunction : Obligations.AndStoresTheConjunction :=
  fun _ _ h => binary_done h rfl

/-- Settles O33: the result is the disjunction, with overflow register, carry and overflow 0. -/
theorem orStoresTheDisjunction : Obligations.OrStoresTheDisjunction :=
  fun _ _ h => binary_done h rfl

/-- Settles O34: the result is the exclusive or, with overflow register, carry and overflow 0. -/
theorem xorStoresTheExclusiveOr : Obligations.XorStoresTheExclusiveOr :=
  fun _ _ h => binary_done h rfl

/-- Settles O35: subtracting from zero is the two's complement. -/
theorem negStoresTheTwosComplement : Obligations.NegStoresTheTwosComplement := by
  intro a s h
  have result : negOut (srcVal a s) = plainOut (~~~srcVal a s + 1#16) :=
    congrArg plainOut ((BitVec.zero_sub _).trans (BitVec.neg_eq_not_add _))
  exact unary_done h result

/-- The two bytes exchanged are the two shifts by eight. -/
theorem swap_bytes (x : Word) :
    (x.extractLsb' 0 8 ++ x.extractLsb' 8 8 : Word) = x <<< 8 ||| x >>> 8 := by
  apply BitVec.eq_of_getLsbD_eq
  intro i hi
  simp only [BitVec.getLsbD_append, BitVec.getLsbD_extractLsb', BitVec.getLsbD_or,
    BitVec.getLsbD_shiftLeft, BitVec.getLsbD_ushiftRight]
  interval_cases i <;> simp

/-- Settles O38: `swap_bytes`. -/
theorem swapExchangesTheBytes : Obligations.SwapExchangesTheBytes := by
  intro a s h
  have result : swapOut (srcVal a s) = plainOut (srcVal a s <<< 8 ||| srcVal a s >>> 8) :=
    congrArg plainOut (swap_bytes _)
  exact unary_done h result

/-- Clearing the low `k` bits rounds down to a multiple of `2 ^ k`. -/
theorem and_high_mask (x : Word) {k : Nat} (hk : k ≤ 16) :
    x &&& BitVec.allOnes 16 <<< k = BitVec.ofNat 16 (x.toNat / 2 ^ k * 2 ^ k) := by
  have hshift : BitVec.ofNat 16 (x.toNat / 2 ^ k * 2 ^ k) = x >>> k <<< k := by
    apply BitVec.eq_of_toNat_eq
    simp [Nat.shiftRight_eq_div_pow, Nat.shiftLeft_eq]
  rw [hshift]
  apply BitVec.eq_of_getLsbD_eq
  intro i hi
  by_cases hik : i < k
  · simp [hik]
  · have hlow : i - k < 16 := by omega
    have hback : k + (i - k) = i := by omega
    simp only [BitVec.getLsbD_and, BitVec.getLsbD_shiftLeft, BitVec.getLsbD_allOnes,
      BitVec.getLsbD_ushiftRight, hi, hik, hlow, hback, decide_true, decide_false, Bool.not_false,
      Bool.and_true, Bool.true_and]

/-- Settles O39: the mask clears the low eight bits. -/
theorem zeroLsbClearsTheLowByte : Obligations.ZeroLsbClearsTheLowByte := by
  intro a s h
  have result : zeroLsbOut (srcVal a s) = plainOut (BitVec.ofNat 16 ((srcVal a s).toNat / 256 * 256)) :=
    congrArg plainOut (and_high_mask _ (k := 8) (by decide))
  exact unary_done h result

/-- Keeping the low `k` bits is the remainder by `2 ^ k`. -/
theorem and_low_mask (x : Word) {k : Nat} (hk : k ≤ 16) :
    x &&& BitVec.ofNat 16 (2 ^ k - 1) = BitVec.ofNat 16 (x.toNat % 2 ^ k) := by
  have hpow : 2 ^ k ≤ 2 ^ 16 := Nat.pow_le_pow_right (by decide) hk
  have hpos : 0 < 2 ^ k := Nat.two_pow_pos k
  have hrem : x.toNat % 2 ^ k < 2 ^ k := Nat.mod_lt _ hpos
  apply BitVec.eq_of_toNat_eq
  rw [BitVec.toNat_and, BitVec.toNat_ofNat, BitVec.toNat_ofNat, Nat.mod_eq_of_lt (by omega),
    Nat.mod_eq_of_lt (by omega), Nat.and_two_pow_sub_one_eq_mod]

/-- Settles O40: the mask keeps the low eight bits. -/
theorem zeroMsbKeepsTheLowByte : Obligations.ZeroMsbKeepsTheLowByte := by
  intro a s h
  have result : zeroMsbOut (srcVal a s) = plainOut (BitVec.ofNat 16 ((srcVal a s).toNat % 256)) :=
    congrArg plainOut (and_low_mask _ (k := 8) (by decide))
  exact unary_done h result

/-- Settles O47: the mask clears the low six bits. -/
theorem pageFindsTheFirstWordOfThePage : Obligations.PageFindsTheFirstWordOfThePage := by
  intro a s h
  have result : pageOut (srcVal a s) = plainOut (BitVec.ofNat 16 ((srcVal a s).toNat / 64 * 64)) :=
    congrArg plainOut (and_high_mask _ (k := 6) (by decide))
  exact unary_done h result

/-- Settles O48: the overflow register is the one before the instruction. -/
theorem addOvfAddsTheOverflowRegister : Obligations.AddOvfAddsTheOverflowRegister :=
  fun _ _ h => unary_done h rfl

/-! ### The shifts (R109, R110; decisions D18, D19) -/

/-- A product by `2 ^ n` with `n` from 32 on has only zeros in its low 32 bits. -/
theorem shift_far (x : Nat) {n : Nat} (hn : 32 ≤ n) :
    x * 2 ^ n = 65536 * (65536 * (x * 2 ^ (n - 32))) := by
  have hpow : 2 ^ n = 2 ^ 32 * 2 ^ (n - 32) := by rw [← pow_add, Nat.add_sub_cancel' hn]
  rw [hpow]
  ring

/-- From 32 places on a left shift has no bit in the low 32 of the product, as at 32 places. -/
theorem shl_cap (x n : Nat) :
    x * 2 ^ min n 32 % 65536 = x * 2 ^ n % 65536 ∧
      x * 2 ^ min n 32 / 65536 % 65536 = x * 2 ^ n / 65536 % 65536 ∧
      (x * 2 ^ min n 32 / 65536 ≠ 0 ↔ 65536 ≤ x * 2 ^ n) := by
  obtain hn | hn := le_total n 32
  · rw [min_eq_left hn]
    exact ⟨rfl, rfl, by omega⟩
  · have hpos : 0 < 2 ^ (n - 32) := Nat.two_pow_pos _
    have hzero : x * 2 ^ (n - 32) = 0 ↔ x = 0 := by simp
    rw [min_eq_right hn, shift_far x (le_refl 32), shift_far x hn]
    simp only [Nat.sub_self, pow_zero, mul_one]
    exact ⟨by omega, by omega, by omega⟩

/-- What shift left computes, by the unbounded product. -/
theorem shlOut_eq (dv sv : Word) :
    shlOut dv sv =
      { result := dv <<< sv
        ovf := BitVec.ofNat 16 (dv.toNat * 2 ^ sv.toNat / 65536)
        c := decide (65536 ≤ dv.toNat * 2 ^ sv.toNat)
        v := decide (65536 ≤ dv.toNat * 2 ^ sv.toNat) } := by
  obtain ⟨hresult, hovf, hout⟩ := shl_cap dv.toNat sv.toNat
  have result : BitVec.ofNat 16 (dv.toNat * 2 ^ min sv.toNat 32) = dv <<< sv := by
    apply BitVec.eq_of_toNat_eq
    simpa [BitVec.shiftLeft_eq', Nat.shiftLeft_eq] using hresult
  have ovf : BitVec.ofNat 16 (dv.toNat * 2 ^ min sv.toNat 32 / 65536) =
      BitVec.ofNat 16 (dv.toNat * 2 ^ sv.toNat / 65536) := BitVec.eq_of_toNat_eq hovf
  have out : (dv.toNat * 2 ^ min sv.toNat 32 / 65536 != 0) =
      decide (65536 ≤ dv.toNat * 2 ^ sv.toNat) := by
    rw [Bool.eq_iff_iff, bne_iff_ne, decide_eq_true_eq]
    exact hout
  simp only [shlOut, result, ovf, out]

/-- Settles O36: the cap at 32 places changes nothing. -/
theorem shlSplitsTheUnboundedShift : Obligations.ShlSplitsTheUnboundedShift :=
  fun _ _ h => binary_done h (shlOut_eq _ _)

/-- From 16 places on the quotient of a 17-bit integer no longer changes. -/
theorem ediv_far {x : Int} (hlow : -65536 ≤ x) (hhigh : x < 65536) {n : Nat} (hn : 16 ≤ n) :
    x / (2 ^ n : Nat) = if x < 0 then -1 else 0 := by
  have hpow : 2 ^ 16 ≤ 2 ^ n := Nat.pow_le_pow_right (by decide) hn
  split
  · next hneg => exact Int.ediv_eq_neg_one_of_neg_of_le hneg (by omega)
  · next hpos => exact Int.ediv_eq_zero_of_lt (by omega) (by omega)

/-- A word read in either mode is a 17-bit integer. -/
theorem modeInt_range (signed : Bool) (x : Word) :
    -65536 ≤ modeInt signed x ∧ modeInt signed x < 65536 := by
  have hlow := BitVec.le_toInt x
  have hhigh := BitVec.toInt_lt (x := x)
  have hword := x.isLt
  unfold modeInt
  split <;> omega

/-- The cap of the shift amount at 16 places changes no quotient and no remainder. -/
theorem shr_cap (dv : Word) (signed : Bool) (n : Nat) :
    modeInt signed dv / (2 ^ min n 16 : Nat) = modeInt signed dv / (2 ^ n : Nat) ∧
      dv.toNat % 2 ^ min n 16 = dv.toNat % 2 ^ n := by
  obtain hn | hn := le_total n 16
  · rw [min_eq_left hn]
    exact ⟨rfl, rfl⟩
  · have hpow : 2 ^ 16 ≤ 2 ^ n := Nat.pow_le_pow_right (by decide) hn
    have hword : dv.toNat < 2 ^ 16 := dv.isLt
    obtain ⟨hlow, hhigh⟩ := modeInt_range signed dv
    rw [min_eq_right hn, ediv_far hlow hhigh hn, ediv_far hlow hhigh (le_refl 16),
      Nat.mod_eq_of_lt hword, Nat.mod_eq_of_lt (hword.trans_le hpow)]
    exact ⟨rfl, rfl⟩

/-- The floor of the quotient by `2 ^ n` is the arithmetic or the logical shift. -/
theorem ofInt_quotient (signed : Bool) (dv sv : Word) :
    BitVec.ofInt 16 (modeInt signed dv / (2 ^ sv.toNat : Nat)) =
      if signed then dv.sshiftRight sv.toNat else dv >>> sv := by
  cases signed
  · apply BitVec.eq_of_toNat_eq
    have hle : dv.toNat / 2 ^ sv.toNat ≤ dv.toNat := Nat.div_le_self _ _
    rw [modeInt, if_neg Bool.false_ne_true, if_neg Bool.false_ne_true, ← Int.natCast_ediv,
      BitVec.ofInt_natCast, BitVec.toNat_ofNat, Nat.mod_eq_of_lt (hle.trans_lt dv.isLt),
      BitVec.ushiftRight_eq', BitVec.toNat_ushiftRight, Nat.shiftRight_eq_div_pow]
  · have hshift : dv.toInt / (2 ^ sv.toNat : Nat) = (dv.sshiftRight sv.toNat).toInt := by
      rw [BitVec.toInt_sshiftRight, Int.shiftRight_eq_div_pow]
    rw [modeInt, if_pos rfl, if_pos rfl, hshift, BitVec.ofInt_toInt]

/-- What shift right computes, by the unbounded quotient and remainder. -/
theorem shrOut_eq (signed : Bool) (dv sv : Word) :
    shrOut signed dv sv =
      { result := if signed then dv.sshiftRight sv.toNat else dv >>> sv
        ovf := BitVec.ofNat 16 (dv.toNat % 2 ^ sv.toNat)
        c := decide (dv.toNat % 2 ^ sv.toNat ≠ 0)
        v := decide (dv.toNat % 2 ^ sv.toNat ≠ 0) } := by
  obtain ⟨hquotient, hrem⟩ := shr_cap dv signed sv.toNat
  have hlt : dv.toNat % 2 ^ sv.toNat < 2 ^ 16 := (Nat.mod_le _ _).trans_lt dv.isLt
  have out : (BitVec.ofNat 16 (dv.toNat % 2 ^ sv.toNat) != 0#16) =
      decide (dv.toNat % 2 ^ sv.toNat ≠ 0) := by
    rw [Bool.eq_iff_iff, bne_iff_ne, decide_eq_true_eq, ne_eq, ne_eq, ← BitVec.toNat_inj,
      BitVec.toNat_ofNat, Nat.mod_eq_of_lt hlt]
    rfl
  simp only [shrOut, hquotient, hrem, out, ofInt_quotient]

/-- Settles O37: the cap at 16 places changes nothing, and the quotient is the shift of the mode. -/
theorem shrRespectsSignedMode : Obligations.ShrRespectsSignedMode :=
  fun _ _ h => binary_done h (shrOut_eq _ _ _)

/-! ### Add, subtract and multiply (R114 to R116; decision D37) -/

/-- A word extended to 32 bits as the mode reads it. -/
def extendMode (signed : Bool) (x : Word) : BitVec 32 :=
  if signed then x.signExtend 32 else x.zeroExtend 32

/-- The 32-bit and the 16-bit pattern of a word read in the mode. -/
theorem ofInt_modeInt (signed : Bool) (x : Word) :
    BitVec.ofInt 32 (modeInt signed x) = extendMode signed x ∧
      BitVec.ofInt 16 (modeInt signed x) = x := by
  cases signed
  · simp [modeInt, extendMode, BitVec.ofNat_toNat]
  · simp [modeInt, extendMode, BitVec.signExtend]

/-- The pattern of a difference is the difference of the patterns. -/
theorem ofInt_sub {n : Nat} (x y : Int) :
    BitVec.ofInt n (x - y) = BitVec.ofInt n x - BitVec.ofInt n y := by
  rw [Int.sub_eq_add_neg, BitVec.ofInt_add, BitVec.ofInt_neg, BitVec.sub_eq_add_neg]

/-- The low half of the 32-bit pattern of an integer is its 16-bit pattern. -/
theorem low_half_ofInt (x : Int) : (BitVec.ofInt 32 x).extractLsb' 0 16 = BitVec.ofInt 16 x := by
  rw [← BitVec.setWidth_eq_extractLsb' (by decide)]
  apply BitVec.eq_of_toNat_eq
  simp only [BitVec.toNat_setWidth, BitVec.toNat_ofInt]
  omega

/-- A wide operation gives the halves of its exact 32-bit result. -/
theorem wideOut_eq {exact : Int} {wide : BitVec 32} {low : Word} (c v : Bool)
    (hwide : BitVec.ofInt 32 exact = wide) (hlow : BitVec.ofInt 16 exact = low) :
    wide.extractLsb' 0 16 = low ∧
      wideOut exact c v = { result := low, ovf := wide.extractLsb' 16 16, c := c, v := v } := by
  subst hwide hlow
  refine ⟨low_half_ofInt exact, ?_⟩
  simp only [wideOut, low_half_ofInt]

/-- Carry and overflow of an addition are those of the 16-bit addition. -/
theorem add_carry_overflow (dv sv : Word) :
    addCarry dv sv = BitVec.uaddOverflow dv sv ∧ addOverflow dv sv = BitVec.saddOverflow dv sv := by
  constructor
  · simp only [addCarry, BitVec.uaddOverflow, decide_eq_decide]
    omega
  · rw [Bool.eq_iff_iff]
    simp only [addOverflow, outsideSigned, BitVec.saddOverflow, Bool.or_eq_true, decide_eq_true_eq]
    omega

/-- Carry and overflow of a subtraction are those of the 16-bit subtraction. -/
theorem sub_borrow_overflow (dv sv : Word) :
    subBorrow dv sv = BitVec.usubOverflow dv sv ∧ subOverflow dv sv = BitVec.ssubOverflow dv sv := by
  constructor
  · rfl
  · rw [Bool.eq_iff_iff]
    simp only [subOverflow, outsideSigned, BitVec.ssubOverflow, Bool.or_eq_true, decide_eq_true_eq]
    omega

/-- Carry and overflow of a multiplication are the overflow of the 16-bit multiplication of the mode. -/
theorem mulOverflow_eq (signed : Bool) (dv sv : Word) :
    mulOverflow signed dv sv =
      if signed then BitVec.smulOverflow dv sv else BitVec.umulOverflow dv sv := by
  rw [Bool.eq_iff_iff]
  cases signed
  · have hcast : (dv.toNat : Int) * sv.toNat = ((dv.toNat * sv.toNat : Nat) : Int) := by push_cast; rfl
    simp only [mulOverflow, modeInt, outsideMode, BitVec.umulOverflow, Bool.false_eq_true, if_false,
      Bool.or_eq_true, decide_eq_true_eq, hcast]
    omega
  · simp only [mulOverflow, modeInt, outsideMode, outsideSigned, BitVec.smulOverflow, if_true,
      Bool.or_eq_true, decide_eq_true_eq]
    omega

/-- A wide operation that is ready completes, with the halves of its exact 32-bit result. -/
theorem wide_done {f : Word → Word → AluOut} {a : Args} {s : State} {exact : Int} {wide : BitVec 32}
    {low : Word} {c v : Bool} (h : ReadyTwo a s)
    (hf : f (dstVal a s) (srcVal a s) = wideOut exact c v) (hwide : BitVec.ofInt 32 exact = wide)
    (hlow : BitVec.ofInt 16 exact = low) :
    ∃ t, execAlu (binary f) a s = .next t ∧ wide.extractLsb' 0 16 = low ∧
      AluDone a (srcEvents a s ++ dstEvents a s) low (wide.extractLsb' 16 16) c v s t := by
  obtain ⟨hhalf, hout⟩ := wideOut_eq c v hwide hlow
  obtain ⟨u, hexec, hdone⟩ := binary_done h (hf.trans hout)
  exact ⟨u, hexec, hhalf, hdone⟩

/-- Settles O41: the sum of the extended words is the extension of the exact sum. -/
theorem addWritesTheWideSum : Obligations.AddWritesTheWideSum := by
  intro a s wide h hwide
  obtain ⟨hdv32, hdv16⟩ := ofInt_modeInt s.signedMode (dstVal a s)
  obtain ⟨hsv32, hsv16⟩ := ofInt_modeInt s.signedMode (srcVal a s)
  obtain ⟨hc, hv⟩ := add_carry_overflow (dstVal a s) (srcVal a s)
  refine wide_done (f := addOut s.signedMode) h (by rw [addOut, hc, hv]) ?_ ?_
  · rw [BitVec.ofInt_add, hdv32, hsv32, hwide]
    cases s.signedMode <;> rfl
  · rw [BitVec.ofInt_add, hdv16, hsv16]

/-- Settles O42: the difference of the extended words is the extension of the exact difference. -/
theorem subWritesTheWideDifference : Obligations.SubWritesTheWideDifference := by
  intro a s wide h hwide
  obtain ⟨hdv32, hdv16⟩ := ofInt_modeInt s.signedMode (dstVal a s)
  obtain ⟨hsv32, hsv16⟩ := ofInt_modeInt s.signedMode (srcVal a s)
  obtain ⟨hc, hv⟩ := sub_borrow_overflow (dstVal a s) (srcVal a s)
  refine wide_done (f := subOut s.signedMode) h (by rw [subOut, hc, hv]) ?_ ?_
  · rw [ofInt_sub, hdv32, hsv32, hwide]
    cases s.signedMode <;> rfl
  · rw [ofInt_sub, hdv16, hsv16]

/-- Settles O43: the product of the extended words is the extension of the exact product. -/
theorem mulWritesTheWideProduct : Obligations.MulWritesTheWideProduct := by
  intro a s wide h hwide
  obtain ⟨hdv32, hdv16⟩ := ofInt_modeInt s.signedMode (dstVal a s)
  obtain ⟨hsv32, hsv16⟩ := ofInt_modeInt s.signedMode (srcVal a s)
  have hcv := mulOverflow_eq s.signedMode (dstVal a s) (srcVal a s)
  refine wide_done (f := mulOut s.signedMode) h (by rw [mulOut, hcv]) ?_ ?_
  · rw [BitVec.ofInt_mul, hdv32, hsv32, hwide]
    cases s.signedMode <;> rfl
  · rw [BitVec.ofInt_mul, hdv16, hsv16]

/-! ### Divide (R117, R121; decision D20) -/

/-- What divide computes for a divisor that is not zero. -/
theorem divOut_eq (signed : Bool) {dv sv : Word} (h : sv ≠ 0#16) :
    divOut signed dv sv =
      { result := if signed then dv.sdiv sv else dv / sv
        ovf := if signed then dv.srem sv else dv % sv
        c := false
        v := signed && decide (dv = 0x8000#16) && decide (sv = 0xFFFF#16) } := by
  have quotient : BitVec.ofInt 16 ((modeInt signed dv).tdiv (modeInt signed sv)) =
      if signed then dv.sdiv sv else dv / sv := by
    cases signed
    · simp only [modeInt, Bool.false_eq_true, if_false, ← Int.ofNat_tdiv, BitVec.ofInt_natCast,
        BitVec.udiv_def]
    · apply BitVec.eq_of_toInt_eq
      simp only [modeInt, if_true, BitVec.toInt_ofInt, BitVec.toInt_sdiv]
  have remainder : BitVec.ofInt 16 ((modeInt signed dv).tmod (modeInt signed sv)) =
      if signed then dv.srem sv else dv % sv := by
    cases signed
    · simp only [modeInt, Bool.false_eq_true, if_false, ← Int.ofNat_tmod, BitVec.ofInt_natCast,
        BitVec.umod_def]
    · simp only [modeInt, if_true, ← BitVec.toInt_srem, BitVec.ofInt_toInt]
  simp only [divOut, if_neg h, quotient, remainder, divOverflow]
  rfl

/-- Settles O44: `divOut_eq`. -/
theorem divWritesQuotientAndRemainder : Obligations.DivWritesQuotientAndRemainder :=
  fun _ _ h hne => binary_done h (divOut_eq _ hne)

/-- Settles O45: the free quotient and remainder, with carry and overflow 0. -/
theorem divByZeroCompletes : Obligations.DivByZeroCompletes := by
  intro a s h hzero
  obtain ⟨u, hexec, hdone⟩ := binary_done (f := divOut s.signedMode) h (if_pos hzero)
  exact ⟨u, _, _, hexec, hdone⟩

/-- Quotient and remainder of a division that does not overflow are exact in the mode. -/
theorem modeInt_divOut {signed : Bool} {dv sv : Word} (h : sv ≠ 0#16)
    (hover : ¬(signed = true ∧ dv = 0x8000#16 ∧ sv = 0xFFFF#16)) :
    modeInt signed (divOut signed dv sv).result = (modeInt signed dv).tdiv (modeInt signed sv) ∧
      modeInt signed (divOut signed dv sv).ovf = (modeInt signed dv).tmod (modeInt signed sv) := by
  rw [divOut_eq signed h]
  cases signed
  · simp only [modeInt, Bool.false_eq_true, if_false, BitVec.toNat_udiv, BitVec.toNat_umod]
    exact ⟨Int.ofNat_tdiv _ _, Int.ofNat_tmod _ _⟩
  · have hexact : dv ≠ BitVec.intMin 16 ∨ sv ≠ -1#16 := by
      by_contra hn
      simp only [not_or, not_not] at hn
      exact hover ⟨rfl, hn.1, hn.2⟩
    simp only [modeInt, if_true]
    exact ⟨BitVec.toInt_sdiv_of_ne_or_ne dv sv hexact, BitVec.toInt_srem dv sv⟩

/-- A word that is not zero is not zero in either mode. -/
theorem modeInt_ne_zero (signed : Bool) {x : Word} (h : x ≠ 0#16) : modeInt signed x ≠ 0 := by
  intro hz
  have hpattern := (ofInt_modeInt signed x).2
  rw [hz] at hpattern
  exact h hpattern.symm

/-- A remainder is zero or has the sign of the dividend. -/
theorem tmod_mul_nonneg (x y : Int) : 0 ≤ x.tmod y * x := by
  obtain hx | hx := le_total 0 x
  · exact mul_nonneg (Int.tmod_nonneg y hx) hx
  · have hneg := Int.tmod_nonneg y (neg_nonneg.mpr hx)
    rw [Int.neg_tmod] at hneg
    exact mul_nonneg_of_nonpos_of_nonpos (neg_nonneg.mp hneg) hx

/-- Settles O46: quotient and remainder are exact, and division toward zero has the law. -/
theorem divisionLaw : Obligations.DivisionLaw := by
  intro signed dv sv hne hover
  obtain ⟨hq, hr⟩ := modeInt_divOut hne hover
  rw [hq, hr]
  refine ⟨(Int.tdiv_mul_add_tmod _ _).symm, ?_, tmod_mul_nonneg _ _⟩
  rw [Int.abs_eq_natAbs, Int.abs_eq_natAbs, Int.natAbs_tmod]
  exact_mod_cast Nat.mod_lt _ (Int.natAbs_pos.mpr (modeInt_ne_zero signed hne))

end Sys2Proof.Alu

/-! ## COPY of non-zero width (41_copy.md R93, R94; log entries 8, 10, 11) -/

namespace Sys2Proof.WideCopy

open Sys2Proof.Machine Sys2Proof.Safety Sys2Proof.WholeMachine

/-- A COPY of non-zero width that is ready runs by the candidate semantics. -/
theorem exec_copy_wide {a : Args} {s : State} (h : WideReady a s) :
    exec (.copy a) s = toOutcome (copyWide a s) := by
  obtain ⟨heff, hwidth, hmode, hinc, -⟩ := h
  simp [exec, execCopy, heff, hwidth, hmode, hinc]

/-- It completes when its words do, and then moves `pc`. -/
theorem exec_copy_wide_next {a : Args} {s u : State} (h : WideReady a s)
    (hwords : copyWords a s.copyWidth.toNat 0#16 s = .ok u) :
    exec (.copy a) s = .next (nextPc a.dst u) := by
  rw [exec_copy_wide h, copyWide, hwords]
  rfl

/-- A width is below 64. -/
theorem width_lt (s : State) : s.copyWidth.toNat < 64 := s.copyWidth.isLt

/-- Two offsets of one block that name one address are equal. -/
theorem offset_inj {base : Word} {j k : Nat} (hj : j < 65536) (hk : k < 65536)
    (h : base + BitVec.ofNat 16 j = base + BitVec.ofNat 16 k) : j = k := by
  have hoff := congrArg BitVec.toNat ((BitVec.add_right_inj base).mp h)
  simpa [Nat.mod_eq_of_lt hj, Nat.mod_eq_of_lt hk] using hoff

/-! ### Words moved into local memory -/

/-- Local memory after the first `n` words of a COPY to the local addresses `dst` on, word `k` being
`value k`. -/
def filled (s : State) (dst : Word) (value : Nat → Word) : Nat → Word → Word
  | 0, w => s.word w
  | k + 1, w => if w = dst + BitVec.ofNat 16 k then value k else filled s dst value k w

/-- Outside the block nothing changes. -/
theorem filled_outside {s : State} {dst : Word} {value : Nat → Word} {n : Nat} {w : Word}
    (h : ∀ k < n, w ≠ dst + BitVec.ofNat 16 k) : filled s dst value n w = s.word w := by
  induction n with
  | zero => rfl
  | succ n ih =>
    rw [filled, if_neg (h n (Nat.lt_succ_self n))]
    exact ih fun k hk => h k (Nat.lt_succ_of_lt hk)

/-- Each address of the block holds its word. -/
theorem filled_inside {s : State} {dst : Word} {value : Nat → Word} {n k : Nat} (hk : k < n)
    (hn : n ≤ 65536) : filled s dst value n (dst + BitVec.ofNat 16 k) = value k := by
  induction n with
  | zero => omega
  | succ n ih =>
    rw [filled]
    split
    · next heq => rw [offset_inj (by omega) (by omega) heq]
    · next hne =>
      have hkn : k ≠ n := fun h => hne (by rw [h])
      exact ih (by omega) (by omega)

/-- A block moved word by word is filled with the words as they are when they are read. -/
theorem wideLocal_filled (s : State) (src dst : Word) (n : Nat) (w : Word) :
    wideLocal s src dst n w =
      filled s dst (fun k => wideLocal s src dst k (src + BitVec.ofNat 16 k)) n w := by
  induction n generalizing w with
  | zero => rfl
  | succ n ih => rw [wideLocal, filled, ih w]

/-- What the first `n` words of a COPY to local memory through register `r` leave, word `k` being
`value k`. -/
structure Moved (a : Args) (s : State) (r : Reg) (value : Nat → Word) (n : Nat) (u : State) : Prop where
  pc : u.pc = s.pc
  cr : u.cr = s.cr
  reg : ∀ q, u.reg q = s.reg q
  flags : u.flags = s.flags
  ovf : u.ovf = s.ovf
  cfg : u.cfg = s.cfg
  canonical : Memory.wf u.mem
  banked : u.banked = s.banked ++ wideEvents a s n
  word : ∀ w, u.word w = filled s (s.reg r) value n w

/-- Word `k` is read after the words before it: its value and the accesses it records. -/
def ReadsWord (a : Args) (s : State) (r : Reg) (value : Nat → Word) (k : Nat) : Prop :=
  ∀ u, Moved a s r value k u → sourceAt (BitVec.ofNat 16 k) a u =
    .ok (value k, logged u (wideReads a s (s.banked ++ wideEvents a s k) k))

section

variable {a : Args} {s : State} {r : Reg} {value : Nat → Word}

/-- Word `k` is written where it belongs. -/
theorem copyWord_moved {k : Nat} {last : Bool} {u : State} (hd : a.dst = .mem r)
    (hto : s.toSpace = .localMem) (hread : ReadsWord a s r value k)
    (himp : s.implemented (s.reg r + BitVec.ofNat 16 k) = true) (h : Moved a s r value k u) :
    ∃ v, copyWord a (BitVec.ofNat 16 k) last u = .ok v ∧ Moved a s r value (k + 1) v := by
  have htoU : u.toSpace = .localMem := by rw [← hto, State.toSpace, h.cr]; rfl
  have himpU : u.implemented (s.reg r + BitVec.ofNat 16 k) = true := by
    rw [State.implemented, h.cfg]
    exact himp
  refine ⟨(logged u (wideReads a s (s.banked ++ wideEvents a s k) k)).setMem
    (writeWord u.mem (s.reg r + BitVec.ofNat 16 k) (value k)), ?_, ?_⟩
  · simp [copyWord, hread u h, hd, Dst.isMem, storeAt, htoU, writeData, h.reg, himpU]
  · refine ⟨h.pc, h.cr, fun q => by simp [h.reg], h.flags, h.ovf, h.cfg, ?_, ?_, fun w => ?_⟩
    · exact writeWord_wf h.canonical _ _
    · simp [h.banked, wideEvents, wideWrites, hd, hto]
    · rw [setMem_word, readWord_writeWord h.canonical, filled]
      split
      · rfl
      · exact h.word w

/-- The words from word `k` on are written where they belong. -/
theorem copyWords_moved (hd : a.dst = .mem r) (hto : s.toSpace = .localMem)
    (hread : ∀ k ≤ s.copyWidth.toNat, ReadsWord a s r value k)
    (himp : ∀ k : Nat, k ≤ s.copyWidth.toNat → s.implemented (s.reg r + BitVec.ofNat 16 k) = true)
    (n k : Nat) (hk : k + n = s.copyWidth.toNat) (u : State) (h : Moved a s r value k u) :
    ∃ v, copyWords a n (BitVec.ofNat 16 k) u = .ok v ∧
      Moved a s r value (s.copyWidth.toNat + 1) v := by
  induction n generalizing k u with
  | zero =>
    obtain rfl : k = s.copyWidth.toNat := hk
    exact copyWord_moved hd hto (hread _ le_rfl) (himp _ le_rfl) h
  | succ n ih =>
    obtain ⟨v, hv, hmoved⟩ := copyWord_moved (last := false) hd hto (hread k (by omega))
      (himp k (by omega)) h
    obtain ⟨t, ht, hall⟩ := ih (k + 1) (by omega) v hmoved
    exact ⟨t, by simp only [copyWords, hv, ofNat_succ, ht], hall⟩

/-- A COPY of non-zero width to local memory whose words are read as `value` says. -/
theorem exec_copy_wide_local (hready : WideReady a s) (hd : a.dst = .mem r)
    (hto : s.toSpace = .localMem) (hread : ∀ k ≤ s.copyWidth.toNat, ReadsWord a s r value k)
    (himp : ∀ k : Nat, k ≤ s.copyWidth.toNat → s.implemented (s.reg r + BitVec.ofNat 16 k) = true) :
    ∃ t, exec (.copy a) s = .next t ∧ WideFrame s t ∧
      t.banked = s.banked ++ wideEvents a s (s.copyWidth.toNat + 1) ∧
      (∀ w, t.word w = filled s (s.reg r) value (s.copyWidth.toNat + 1) w) ∧
      (∀ k : Nat, k ≤ s.copyWidth.toNat → t.word (s.reg r + BitVec.ofNat 16 k) = value k) ∧
      ∀ w, (∀ k : Nat, k ≤ s.copyWidth.toNat → w ≠ s.reg r + BitVec.ofNat 16 k) →
        t.word w = s.word w := by
  have ⟨_, _, _, _, hwf⟩ := hready
  have start : Moved a s r value 0 s :=
    ⟨rfl, rfl, fun _ => rfl, rfl, rfl, rfl, hwf, by simp [wideEvents], fun _ => rfl⟩
  obtain ⟨u, hwords, moved⟩ := copyWords_moved hd hto hread himp s.copyWidth.toNat 0 (by omega) s start
  have hwidth := width_lt s
  refine ⟨u.advancePc, ?_, ?_, moved.banked, moved.word, fun k hk => ?_, fun w hw => ?_⟩
  · rw [exec_copy_wide_next hready hwords, hd]
    rfl
  · exact ⟨by simp [moved.pc], moved.cr, fun q => by simp [moved.reg], moved.flags, moved.ovf,
      moved.cfg, moved.canonical⟩
  · rw [advancePc_word, moved.word, filled_inside (by omega) (by omega)]
  · rw [advancePc_word, moved.word, filled_outside fun k hk => hw k (by omega)]

end

/-- Without a `mem` source, and with the source in local memory, no read is recorded. -/
theorem wideReads_nil {a : Args} {s : State}
    (h : ∀ q, a.src = .mem q → s.fromSpace = .localMem) (log : List BankedEvent) (k : Nat) :
    wideReads a s log k = [] := by
  unfold wideReads
  split
  · next q hq => simp [readEvents, h q hq]
  · rfl

/-- Without recorded reads and writes the record stays as it was. -/
theorem wideEvents_nil {a : Args} {s : State} (hsrc : ∀ q, a.src = .mem q → s.fromSpace = .localMem)
    (hdst : ∀ r, a.dst = .mem r → s.toSpace = .localMem) (n : Nat) : wideEvents a s n = [] := by
  have hwrites (log : List BankedEvent) (k : Nat) : wideWrites a s log k = [] := by
    unfold wideWrites
    split
    · next r hr => simp [hdst r hr]
    · rfl
  induction n with
  | zero => rfl
  | succ n ih => simp [wideEvents, ih, wideReads_nil hsrc, hwrites]

/-- A source that is no `mem` argument is read as the source value at every word. -/
theorem sourceAt_not_mem {a : Args} {s u : State} (h : a.src.isMem = false) (hpc : u.pc = s.pc)
    (hreg : ∀ q, u.reg q = s.reg q) (k : Word) : sourceAt k a u = .ok (srcVal a s, u) := by
  unfold sourceAt srcVal
  cases hs : a.src with
  | mem q => simp [hs, Src.isMem] at h
  | pc => simp [hpc]
  | val => rfl
  | reg q => simp [hreg]

/-- A source whose `isMem` test fails is none of the `mem` sources. -/
theorem not_mem_of_isMem {x : Src} (h : x.isMem = false) (q : Reg) : x ≠ .mem q := by
  rintro rfl
  cases h

/-- Settles O27: every word is read as the source value. -/
theorem wideCopyFillsLocalWords : Obligations.WideCopyFillsLocalWords := by
  intro a s r hready hd hsrc hto himp
  have hnone : ∀ q, a.src = .mem q → s.fromSpace = .localMem :=
    fun q hq => absurd hq (not_mem_of_isMem hsrc q)
  have hread : ∀ k ≤ s.copyWidth.toNat, ReadsWord a s r (fun _ => srcVal a s) k := by
    intro k _ u hu
    rw [wideReads_nil hnone, logged_nil]
    exact sourceAt_not_mem hsrc hu.pc hu.reg _
  obtain ⟨m, hexec, hframe, hbanked, -, hin, hout⟩ := exec_copy_wide_local hready hd hto hread himp
  exact ⟨m, hexec, hframe, by rw [hbanked, wideEvents_nil hnone (fun _ _ => hto), List.append_nil],
    hin, hout⟩

/-- Settles O28: word `k` is read from what the words before it left. -/
theorem wideCopyMovesLocalWords : Obligations.WideCopyMovesLocalWords := by
  intro a s r q hready hd hsrc hto hfrom himp
  have hnone : ∀ q, a.src = .mem q → s.fromSpace = .localMem := fun _ _ => hfrom
  have hread : ∀ k ≤ s.copyWidth.toNat, ReadsWord a s r
      (fun k => wideLocal s (s.reg q + a.imm) (s.reg r) k (s.reg q + a.imm + BitVec.ofNat 16 k)) k := by
    intro k hk u hu
    have hfromU : u.fromSpace = .localMem := by rw [← hfrom, State.fromSpace, hu.cr]; rfl
    have himpU : u.implemented (s.reg q + a.imm + BitVec.ofNat 16 k) = true := by
      rw [State.implemented, hu.cfg]
      exact (himp k hk).2
    have hvalue : u.word (s.reg q + a.imm + BitVec.ofNat 16 k) =
        wideLocal s (s.reg q + a.imm) (s.reg r) k (s.reg q + a.imm + BitVec.ofNat 16 k) := by
      rw [hu.word, wideLocal_filled]
    rw [wideReads_nil hnone, logged_nil]
    simp [sourceAt, hsrc, hfromU, readData, hu.reg, himpU, hvalue]
  obtain ⟨m, hexec, hframe, hbanked, hword, hin, hout⟩ :=
    exec_copy_wide_local hready hd hto hread (fun k hk => (himp k hk).1)
  refine ⟨m, hexec, hframe, by rw [hbanked, wideEvents_nil hnone (fun _ _ => hto), List.append_nil],
    fun w => by rw [hword, wideLocal_filled], fun hapart k hk => ?_, hout⟩
  rw [hin k hk, wideLocal_filled]
  exact filled_outside fun j hj => hapart j k hj hk

/-- Settles O60: word `k` is the draw after the accesses of the words before it. -/
theorem wideCopyBringsBankedWords : Obligations.WideCopyBringsBankedWords := by
  intro a s r q hready hd hsrc hto hfrom himp
  have hread : ∀ k ≤ s.copyWidth.toNat, ReadsWord a s r (fun k =>
      Config.bankedRead (s.banked ++ wideEvents a s k) (s.reg q + a.imm + BitVec.ofNat 16 k)) k := by
    intro k _ u hu
    have hfromU : u.fromSpace = .banked := by rw [← hfrom, State.fromSpace, hu.cr]; rfl
    simp [sourceAt, hsrc, hfromU, readData, hu.reg, hu.banked, wideReads, readEvents, valueAt, hfrom,
      logged, State.record]
  obtain ⟨m, hexec, hframe, hbanked, -, hin, hout⟩ := exec_copy_wide_local hready hd hto hread himp
  exact ⟨m, hexec, hframe, hbanked, hin, hout⟩

/-! ### Words moved to banked memory -/

/-- Where no read is recorded and each word is what `value` says, the record gains the writes. -/
theorem wideEvents_writes {a : Args} {s : State} {r : Reg} {value : Nat → Word} (hd : a.dst = .mem r)
    (hto : s.toSpace = .banked) (hsrc : ∀ q, a.src = .mem q → s.fromSpace = .localMem)
    (hvalue : ∀ log k, wideValue a s log k = value k) (n : Nat) :
    wideEvents a s n =
      (List.range n).map fun k => .write (s.reg r + BitVec.ofNat 16 k) (value k) := by
  induction n with
  | zero => rfl
  | succ n ih => simp [wideEvents, ih, wideReads_nil hsrc, wideWrites, hd, hto, hvalue, List.range_succ]

/-- What word `k` is, of a source in local memory. -/
theorem wideValue_local {a : Args} {s : State} {q : Reg} (hsrc : a.src = .mem q)
    (hfrom : s.fromSpace = .localMem) (log : List BankedEvent) (k : Nat) :
    wideValue a s log k = s.word (s.reg q + a.imm + BitVec.ofNat 16 k) := by
  simp [wideValue, hsrc, hfrom, valueAt]

/-- What word `k` is, of a source that is no `mem` argument. -/
theorem wideValue_not_mem {a : Args} {s : State} (h : a.src.isMem = false) (log : List BankedEvent)
    (k : Nat) : wideValue a s log k = srcVal a s := by
  unfold wideValue
  split
  · next q hq => exact absurd hq (not_mem_of_isMem h q)
  · rfl

/-- Settles O29: the words go to the record, and the record is written out for the two sources whose
reads are not recorded. -/
theorem wideCopySendsWordsToBanked : Obligations.WideCopySendsWordsToBanked := by
  intro a s r hready hd hto hreadable
  have hwords := copyWords_wide_all hreadable (fun _ _ => hto)
  rw [hd, Dst.isMem, if_pos rfl] at hwords
  have hexec := exec_copy_wide_next hready hwords
  rw [hd] at hexec
  obtain ⟨-, -, -, -, hwf⟩ := hready
  refine ⟨_, hexec, ⟨rfl, rfl, fun q => by simp [nextPc], rfl, rfl, rfl, hwf⟩, fun _ => rfl, rfl,
    fun q hsrc hfrom => ?_, fun hsrc => ?_⟩
  · exact congrArg (s.banked ++ ·)
      (wideEvents_writes hd hto (fun _ _ => hfrom) (wideValue_local hsrc hfrom) _)
  · exact congrArg (s.banked ++ ·)
      (wideEvents_writes hd hto (fun q hq => absurd hq (not_mem_of_isMem hsrc q))
        (wideValue_not_mem hsrc) _)

/-! ### The last word to a register -/

/-- An instruction without an increment moves no register before its store. -/
theorem moveIncrement_none {a : Args} (h : a.inc = false) (s : State) : moveIncrement a s = s := by
  simp [moveIncrement, h]

/-- Settles O30: the last word is stored after all reads, as the result of a COPY of one word is. -/
theorem wideCopyToRegisterStoresTheLastWord : Obligations.WideCopyToRegisterStoresTheLastWord := by
  intro a s hready hd hreadable
  have hnotmem : ∀ r, a.dst ≠ .mem r := by
    rintro r hr
    simp [hr, Dst.isMem] at hd
  have hwords := copyWords_wide_all hreadable (fun r hr => absurd hr (hnotmem r))
  have ⟨_, _, _, hinc, hwf⟩ := hready
  rw [hd, if_neg Bool.false_ne_true] at hwords
  obtain ⟨u, hstore⟩ := store_completes a (wideWord a s s.copyWidth.toNat) s
    (wideEvents a s (s.copyWidth.toNat + 1)) (fun r hr => absurd hr (hnotmem r))
  obtain ⟨hstored, hflags, hovf⟩ := store_leaves hwf hstore
  rw [moveIncrement_none hinc, storeResult] at hstore
  refine ⟨_, exec_copy_wide_next hready (hwords.trans hstore), hflags, hovf, hstored,
    fun q hsrc hfrom => ?_, fun hsrc => ?_⟩
  · rw [wideWord, wideValue_local hsrc hfrom,
      wideEvents_nil (fun _ _ => hfrom) (fun r hr => absurd hr (hnotmem r))] at hstored
    exact hstored
  · rw [wideWord, wideValue_not_mem hsrc,
      wideEvents_nil (fun q hq => absurd hq (not_mem_of_isMem hsrc q))
        (fun r hr => absurd hr (hnotmem r))] at hstored
    exact hstored

end Sys2Proof.WideCopy

/-! ## Unimplemented accesses (20_memory.md R41; 60_exceptions.md R142) -/

namespace Sys2Proof.Faults

open Sys2Proof.Machine Sys2Proof.Safety

/-! ### The access that faults -/

/-- A local read of an unimplemented address faults. -/
theorem readData_fault {w : Word} {s : State} (h : s.implemented w = false) :
    readData .localMem w s = .error (.unimplementedRead w) := by
  simp [readData, h]

/-- A local write of an unimplemented address faults. -/
theorem writeData_fault {w v : Word} {s : State} (h : s.implemented w = false) :
    writeData .localMem w v s = .error (.unimplementedWrite w) := by
  simp [writeData, h]

/-- A `mem` source at an unimplemented local address faults. -/
theorem sourceValue_fault {a : Args} {s : State} {q : Reg} (hsrc : a.src = .mem q)
    (hfrom : s.fromSpace = .localMem) (h : s.implemented (s.reg q + a.imm) = false) :
    sourceValue a s = .error (.unimplementedRead (s.reg q + a.imm)) := by
  simp [sourceValue, sourceAt, hsrc, hfrom, readData_fault h]

/-- A `mem` destination operand at an unimplemented local address faults, whatever was read before. -/
theorem destOperand_fault {a : Args} {s : State} {r : Reg} (evs : List BankedEvent)
    (hd : a.dst = .mem r) (hto : s.toSpace = .localMem) (h : s.implemented (s.reg r) = false) :
    destOperand a.dst (logged s evs) = .error (.unimplementedRead (s.reg r)) := by
  have hl : (logged s evs).implemented (s.reg r) = false := h
  simp [destOperand, hd, hto, readData_fault hl]

/-- A store to an unimplemented local address faults, after the increment. -/
theorem storeResult_fault {a : Args} {s : State} {r : Reg} (evs : List BankedEvent) (res : Word)
    (hd : a.dst = .mem r) (hto : s.toSpace = .localMem)
    (h : s.implemented (storeAddr a s r) = false) :
    storeResult a.dst res (moveIncrement a (logged s evs)) =
      .error (.unimplementedWrite (storeAddr a s r)) := by
  obtain ⟨hspace, haddr⟩ := store_operands a s evs r hd
  obtain ⟨-, -, -, -, -, -, hcfg⟩ := moveIncrement_frame a (logged s evs)
  have himp : (moveIncrement a (logged s evs)).implemented (storeAddr a s r) = false := by
    rw [State.implemented, hcfg]
    exact h
  simp only [storeResult, storeAt, hd]
  rw [hspace, haddr, hto, writeData_fault himp]

/-! ### The instruction that makes it -/

/-- The fault of a read or a store of a COPY of one word is the fault of the instruction. -/
theorem copyOne_fault {a : Args} {s : State} {f : Fault} :
    (sourceValue a s = .error f → copyOne a s = .error f) ∧
      (SourceReadable a s → storeResult a.dst (srcVal a s)
        (moveIncrement a (logged s (srcEvents a s))) = .error f → copyOne a s = .error f) :=
  ⟨fun h => by simp [copyOne, h],
    fun hsource h => by simp [copyOne, (sourceValue_ok a s _).mpr ⟨hsource, rfl⟩, h]⟩

/-- Every ALU operation is the frame over one or two operands. -/
theorem exec_aluInstr_operands (op : AluOp) (a : Args) (s : State) :
    exec (aluInstr op a) s =
      execAlu (if twoOperand op then binary (aluOut op s.signedMode s.ovf)
        else unary (aluOut op s.signedMode s.ovf 0#16)) a s := by
  cases op <;> rfl

/-- The fault of an operand read, made also under FLAGS_ON_SKIP, is the fault of the instruction. -/
theorem execAlu_read_fault {operate : Args → State → Except Fault (AluOut × State)} {a : Args}
    {s : State} {f : Fault} (hreads : effectHolds a.eff s.flags = true ∨ s.cfg.flagsOnSkip = true)
    (h : operate a s = .error f) : execAlu operate a s = .fault f := by
  unfold execAlu
  cases heff : effectHolds a.eff s.flags
  · have hskip : s.cfg.flagsOnSkip = true := by simpa [heff] using hreads
    simp [hskip, h]
  · simp [h]

/-- The fault of a source read is that of the operands. -/
theorem operands_source_fault {f1 : Word → AluOut} {f2 : Word → Word → AluOut} {two : Bool} {a : Args}
    {s : State} {f : Fault} (h : sourceValue a s = .error f) :
    (if two then binary f2 else unary f1) a s = .error f := by
  cases two <;> simp [binary, unary, h]

/-- The fault of a destination operand read is that of two operands. -/
theorem binary_dest_fault {f2 : Word → Word → AluOut} {a : Args} {s : State} {f : Fault}
    (hsource : SourceReadable a s) (h : destOperand a.dst (logged s (srcEvents a s)) = .error f) :
    binary f2 a s = .error f := by
  simp [binary, (sourceValue_ok a s _).mpr ⟨hsource, rfl⟩, h]

/-- The fault of the store of an ALU instruction is the fault of the instruction. -/
theorem exec_aluInstr_store_fault {op : AluOp} {a : Args} {s : State} {r : Reg}
    (heff : effectHolds a.eff s.flags = true) (hsource : SourceReadable a s)
    (hdest : twoOperand op = true → DestReadable a s) (hd : a.dst = .mem r)
    (hto : s.toSpace = .localMem) (h : s.implemented (storeAddr a s r) = false) :
    exec (aluInstr op a) s = .fault (.unimplementedWrite (storeAddr a s r)) := by
  obtain ⟨operate, hexec, hoperate⟩ := exec_aluInstr op a s
  simp [hexec, execAlu, heff, (hoperate _).mpr ⟨hsource, hdest, rfl⟩, finishAlu,
    storeResult_fault _ _ hd hto h, toOutcome]

/-! ### The word of a wide COPY that makes it -/

/-- What the words before a word of a COPY of non-zero width leave alone: the control register, the
parameters and the registers, so the later words have the same spaces and addresses. -/
def SameAddresses (s u : State) : Prop := u.cr = s.cr ∧ u.cfg = s.cfg ∧ ∀ r, u.reg r = s.reg r

/-- Where the words before word `k` complete and word `k` faults, the words from word `j` on fault. -/
theorem copyWords_fault {a : Args} {s : State} {k : Nat} {f : Fault} (hk : k ≤ s.copyWidth.toNat)
    (hbefore : ∀ j < k, WideWordReadable a s j ∧ WideWordStorable a s j)
    (hfault : ∀ u last, SameAddresses s u → copyWord a (BitVec.ofNat 16 k) last u = .error f)
    (m j : Nat) (hj : j + m = k) (u : State) (h : SameAddresses s u) :
    copyWords a (s.copyWidth.toNat - j) (BitVec.ofNat 16 j) u = .error f := by
  induction m generalizing j u with
  | zero =>
    obtain rfl : j = k := hj
    cases hrest : s.copyWidth.toNat - j with
    | zero => exact hfault u true h
    | succ n => simp only [copyWords, hfault u false h]
  | succ m ih =>
    have ⟨hcr, hcfg, hreg⟩ := h
    obtain ⟨hreadable, hstorable⟩ := hbefore j (by omega)
    obtain ⟨v, hv⟩ := copyWord_completes (last := false) hcr hcfg hreg hreadable hstorable
    obtain ⟨keeps, hcrKept⟩ := copyWord_keeps hv
    have hnext : SameAddresses s v :=
      ⟨(hcrKept rfl).trans hcr, keeps.cfg.trans hcfg,
        fun r => (copyWord_reg hv (.inr rfl) r).trans (hreg r)⟩
    have hlater := ih (j + 1) (by omega) v hnext
    rw [show s.copyWidth.toNat - j = s.copyWidth.toNat - (j + 1) + 1 by omega]
    simp only [copyWords, hv, ofNat_succ, hlater]

/-- The same from the first word on: the fault of the instruction. -/
theorem exec_copy_wide_fault {a : Args} {s : State} {k : Nat} {f : Fault}
    (heff : effectHolds a.eff s.flags = true) (hwidth : s.copyWidth ≠ 0#6)
    (hmode : s.cfg.copyWidthMode = .ascending) (hinc : a.inc = false) (hk : k ≤ s.copyWidth.toNat)
    (hbefore : ∀ j < k, WideWordReadable a s j ∧ WideWordStorable a s j)
    (hfault : ∀ u last, SameAddresses s u → copyWord a (BitVec.ofNat 16 k) last u = .error f) :
    exec (.copy a) s = .fault f := by
  have hwords := copyWords_fault hk hbefore hfault k 0 (by omega) s ⟨rfl, rfl, fun _ => rfl⟩
  simp only [Nat.sub_zero] at hwords
  simp [exec, execCopy, heff, hwidth, hmode, hinc, copyWide, hwords, toOutcome]

/-- Word `k` faults at its read. -/
theorem copyWord_read_fault {a : Args} {s u : State} {k : Nat} {last : Bool} {q : Reg}
    (h : SameAddresses s u) (hsrc : a.src = .mem q) (hfrom : s.fromSpace = .localMem)
    (himp : s.implemented (s.reg q + a.imm + BitVec.ofNat 16 k) = false) :
    copyWord a (BitVec.ofNat 16 k) last u =
      .error (.unimplementedRead (s.reg q + a.imm + BitVec.ofNat 16 k)) := by
  obtain ⟨hcr, hcfg, hreg⟩ := h
  have hfromU : u.fromSpace = .localMem := by rw [← hfrom, State.fromSpace, hcr]; rfl
  have himpU : u.implemented (s.reg q + a.imm + BitVec.ofNat 16 k) = false := by
    rw [State.implemented, hcfg]
    exact himp
  simp [copyWord, sourceAt, hsrc, hfromU, hreg, readData_fault himpU]

/-- Word `k` is read and faults at its write. -/
theorem copyWord_write_fault {a : Args} {s u : State} {k : Nat} {last : Bool} {r : Reg}
    (h : SameAddresses s u) (hreadable : WideWordReadable a s k) (hd : a.dst = .mem r)
    (hto : s.toSpace = .localMem) (himp : s.implemented (s.reg r + BitVec.ofNat 16 k) = false) :
    copyWord a (BitVec.ofNat 16 k) last u =
      .error (.unimplementedWrite (s.reg r + BitVec.ofNat 16 k)) := by
  obtain ⟨hcr, hcfg, hreg⟩ := h
  have hreadableU : WideWordReadable a u k := by
    intro q hq hf
    rw [State.implemented, hcfg, hreg]
    exact hreadable q hq (by rw [← hf, State.fromSpace, State.fromSpace, hcr])
  have hread := sourceAt_wide [] hreadableU
  rw [logged_nil] at hread
  have htoU : u.toSpace = .localMem := by rw [← hto, State.toSpace, hcr]; rfl
  have himpU (evs : List BankedEvent) :
      (logged u evs).implemented (s.reg r + BitVec.ofNat 16 k) = false := by
    rw [State.implemented, logged_cfg, hcfg]
    exact himp
  simp [copyWord, hread, hd, Dst.isMem, storeAt, htoU, hreg, writeData_fault (himpU _)]

/-! ### The statement -/

/-- Settles O59: each instruction makes its accesses in the order of R142 and stops at the first that
faults. -/
theorem unimplementedAccessFaultsTheInstruction :
    Obligations.UnimplementedAccessFaultsTheInstruction := by
  refine ⟨fun a s heff hwidth => ⟨fun q hsrc hfrom himp => ?_, fun r hsource hd hto himp => ?_⟩,
    fun op a s hreads => ⟨fun q hsrc hfrom himp => ?_, fun r hsource htwo hd hto himp => ?_⟩,
    fun op a s r heff hsource hdest hd hto himp =>
      exec_aluInstr_store_fault heff hsource hdest hd hto himp,
    fun a s k heff hwidth hmode hinc hk hbefore => ⟨fun q hsrc hfrom himp => ?_,
      fun r hreadable hd hto himp => ?_⟩⟩
  · rw [EffectAndCopy.exec_copy_one heff hwidth, copyOne_fault.1 (sourceValue_fault hsrc hfrom himp)]
    rfl
  · rw [EffectAndCopy.exec_copy_one heff hwidth,
      copyOne_fault.2 hsource (storeResult_fault _ _ hd hto himp)]
    rfl
  · rw [exec_aluInstr_operands]
    exact execAlu_read_fault hreads (operands_source_fault (sourceValue_fault hsrc hfrom himp))
  · rw [exec_aluInstr_operands, if_pos htwo]
    exact execAlu_read_fault hreads (binary_dest_fault hsource (destOperand_fault _ hd hto himp))
  · exact exec_copy_wide_fault heff hwidth hmode hinc hk hbefore
      (fun u last h => copyWord_read_fault h hsrc hfrom himp)
  · exact exec_copy_wide_fault heff hwidth hmode hinc hk hbefore
      (fun u last h => copyWord_write_fault h hreadable hd hto himp)

end Sys2Proof.Faults

/-! ## Signed mode reaches five operations only (10_state.md R20; 42_alu.md R120) -/

namespace Sys2Proof.SignedMode

open Sys2Proof.Machine Sys2Proof.Safety

/-! ### States that differ in the control register and the parameters only -/

/-- The state with the control register and the parameters changed. -/
def recast (g : Word → Word) (h : Config → Config) (s : State) : State :=
  { s with cr := g s.cr, cfg := h s.cfg }

/-- The changes that touch nothing an instruction reads of the control register and the parameters but
the mode: the spaces, the copy width, and what LOCAL_WORDS, COPY_WIDTH_MODE and FLAGS_ON_SKIP hold. -/
structure OnlyMode (g : Word → Word) (h : Config → Config) : Prop where
  fromBit : ∀ w, (g w).getLsbD 1 = w.getLsbD 1
  toBit : ∀ w, (g w).getLsbD 0 = w.getLsbD 0
  width : ∀ w, (g w).extractLsb' 2 6 = w.extractLsb' 2 6
  halt : ∀ w, (g w ||| 0x0200#16) &&& crMask = g ((w ||| 0x0200#16) &&& crMask)
  localWords : ∀ c, (h c).localWords = c.localWords
  copyWidthMode : ∀ c, (h c).copyWidthMode = c.copyWidthMode
  flagsOnSkip : ∀ c, (h c).flagsOnSkip = c.flagsOnSkip

/-- Flipping bit 8 touches the mode only. -/
theorem onlyMode_flipG : OnlyMode (· ^^^ 0x0100#16) id where
  fromBit w := by simp
  toBit w := by simp
  width w := by
    apply BitVec.eq_of_getLsbD_eq
    intro i hi
    simp only [BitVec.getLsbD_extractLsb', BitVec.getLsbD_xor]
    interval_cases i <;> simp
  halt w := by
    apply BitVec.eq_of_getLsbD_eq
    intro i hi
    simp only [crMask, BitVec.getLsbD_and, BitVec.getLsbD_or, BitVec.getLsbD_xor]
    interval_cases i <;> simp
  localWords _ := rfl
  copyWidthMode _ := rfl
  flagsOnSkip _ := rfl

/-- Flipping SIGNED_G touches the mode only. -/
theorem onlyMode_flipSignedG : OnlyMode id (fun c => { c with signedG := !c.signedG }) :=
  ⟨fun _ => rfl, fun _ => rfl, fun _ => rfl, fun _ => rfl, fun _ => rfl, fun _ => rfl, fun _ => rfl⟩

section

variable {g : Word → Word} {h : Config → Config}

@[simp] theorem recast_reg (s : State) (r : Reg) : (recast g h s).reg r = s.reg r := by
  cases r <;> rfl

@[simp] theorem recast_setReg (s : State) (r : Reg) (v : Word) :
    (recast g h s).setReg r v = recast g h (s.setReg r v) := by
  cases r <;> rfl

@[simp] theorem recast_nextPc (d : Dst) (s : State) : nextPc d (recast g h s) = recast g h (nextPc d s) := by
  cases d <;> rfl

@[simp] theorem recast_moveIncrement (a : Args) (s : State) :
    moveIncrement a (recast g h s) = recast g h (moveIncrement a s) := by
  unfold moveIncrement
  split
  · split <;> simp
  · rfl

/-- An outcome of a read with its state recast. -/
abbrev recastRead {α : Type} (g : Word → Word) (h : Config → Config) :
    Except Fault (α × State) → Except Fault (α × State) :=
  Except.map (Prod.map id (recast g h))

/-- The spaces, the copy width and the implemented addresses are those of the state before. -/
theorem recast_accessors (m : OnlyMode g h) (s : State) :
    (recast g h s).fromSpace = s.fromSpace ∧ (recast g h s).toSpace = s.toSpace ∧
      (recast g h s).copyWidth = s.copyWidth ∧
      ∀ w, (recast g h s).implemented w = s.implemented w :=
  ⟨congrArg spaceOf (m.fromBit _), congrArg spaceOf (m.toBit _), m.width _,
    fun w => by simp [State.implemented, recast, m.localWords]⟩

/-! ### The shared operations -/

theorem recast_readData (m : OnlyMode g h) (sp : Space) (w : Word) (s : State) :
    readData sp w (recast g h s) = recastRead g h (readData sp w s) := by
  obtain ⟨-, -, -, himp⟩ := recast_accessors m s
  cases sp
  · cases hi : s.implemented w
    · simp [readData, himp, hi, Except.map]
    · simp [readData, himp, hi, Except.map]
      rfl
  · rfl

theorem recast_sourceAt (m : OnlyMode g h) (k : Word) (a : Args) (s : State) :
    sourceAt k a (recast g h s) = recastRead g h (sourceAt k a s) := by
  obtain ⟨hfrom, -, -, -⟩ := recast_accessors m s
  unfold sourceAt
  cases a.src with
  | mem r =>
    simp only [hfrom, recast_reg]
    exact recast_readData m _ _ s
  | pc => rfl
  | val => rfl
  | reg r =>
    simp only [recast_reg]
    rfl

/-- The destination operand is the same unless it is the changed control register. -/
theorem recast_destOperand (m : OnlyMode g h) {d : Dst} (hd : d = .cr → ∀ w, g w = w) (s : State) :
    destOperand d (recast g h s) = recastRead g h (destOperand d s) := by
  obtain ⟨-, hto, -, -⟩ := recast_accessors m s
  unfold destOperand
  cases d with
  | mem r =>
    simp only [hto, recast_reg]
    exact recast_readData m _ _ s
  | pc => rfl
  | cr => exact congrArg (fun x => Except.ok (x, recast g h s)) (hd rfl s.cr)
  | reg r =>
    simp only [recast_reg]
    rfl

/-- A store leaves the same unless it overwrites the changed control register. -/
theorem recast_storeAt (m : OnlyMode g h) (k : Word) {d : Dst} (hd : d = .cr → ∀ w, g w = w) (v : Word)
    (s : State) : storeAt k d v (recast g h s) = (storeAt k d v s).map (recast g h) := by
  obtain ⟨-, hto, -, himp⟩ := recast_accessors m s
  unfold storeAt
  cases d with
  | mem r =>
    simp only [hto, recast_reg]
    cases s.toSpace
    · cases hi : s.implemented (s.reg r + k)
      · simp [writeData, himp, hi, Except.map]
      · simp [writeData, himp, hi, Except.map]
        rfl
    · rfl
  | pc => rfl
  | cr =>
    simp only [Except.map, State.setCr, recast, hd rfl]
  | reg r => simp only [recast_setReg, Except.map]

theorem recast_storeResult (m : OnlyMode g h) {d : Dst} (hd : d = .cr → ∀ w, g w = w) (v : Word)
    (s : State) : storeResult d v (recast g h s) = (storeResult d v s).map (recast g h) :=
  recast_storeAt m 0#16 hd v s

/-! ### The frame of the ALU instructions -/

theorem recast_unary (m : OnlyMode g h) (f : Word → AluOut) (a : Args) (s : State) :
    unary f a (recast g h s) = recastRead g h (unary f a s) := by
  unfold unary
  rw [sourceValue, sourceValue, recast_sourceAt m]
  cases sourceAt 0#16 a s <;> rfl

theorem recast_binary (m : OnlyMode g h) (f : Word → Word → AluOut) {a : Args}
    (hd : a.dst = .cr → ∀ w, g w = w) (s : State) :
    binary f a (recast g h s) = recastRead g h (binary f a s) := by
  unfold binary
  rw [sourceValue, sourceValue, recast_sourceAt m]
  cases sourceAt 0#16 a s with
  | error e => rfl
  | ok p =>
    obtain ⟨v, s1⟩ := p
    simp only [Except.map, Prod.map, recast_destOperand m hd s1]
    cases destOperand a.dst s1 <;> rfl

theorem recast_finishAlu (m : OnlyMode g h) {a : Args} (hd : a.dst = .cr → ∀ w, g w = w) (o : AluOut)
    (s : State) : finishAlu a o (recast g h s) = (finishAlu a o s).map (recast g h) := by
  unfold finishAlu
  rw [recast_moveIncrement, recast_storeResult m hd]
  cases storeResult a.dst o.result (moveIncrement a s) with
  | error e => rfl
  | ok u => exact congrArg Except.ok (recast_nextPc a.dst (u.setAlu o.flags o.ovf))

/-- An outcome whose result is recast is the recast outcome. -/
theorem toOutcome_map (f : State → State) (x : Except Fault State) :
    toOutcome (x.map f) = mapNext f (toOutcome x) := by
  cases x <;> rfl

theorem recast_execAlu (m : OnlyMode g h)
    {operate : Args → State → Except Fault (AluOut × State)} {a : Args}
    (hd : a.dst = .cr → ∀ w, g w = w) {s : State}
    (hread : operate a (recast g h s) = recastRead g h (operate a s)) :
    execAlu operate a (recast g h s) = mapNext (recast g h) (execAlu operate a s) := by
  have hskip : (recast g h s).cfg.flagsOnSkip = s.cfg.flagsOnSkip := m.flagsOnSkip s.cfg
  have hflags : (recast g h s).flags = s.flags := rfl
  unfold execAlu
  rw [hread, hskip, hflags]
  split
  · cases operate a s with
    | error e => rfl
    | ok p =>
      exact (congrArg toOutcome (recast_finishAlu m hd p.1 p.2)).trans (toOutcome_map _ _)
  · split
    · cases operate a s <;> rfl
    · rfl

/-- An operation that does not respect the mode computes the same in both. -/
theorem aluOut_mode {op : AluOp} {a : Args} (hop : respectsMode (aluInstr op a) = false)
    (signed signed' : Bool) : aluOut op signed = aluOut op signed' := by
  cases op
  case shr | add | sub | mul | div => cases hop
  all_goals rfl

/-- The same instruction on the state before and on the recast state, its operation being the same. -/
theorem recast_aluInstr (m : OnlyMode g h) {op : AluOp} {a : Args} {s : State}
    (hop : respectsMode (aluInstr op a) = false) (hd : a.dst = .cr → ∀ w, g w = w) :
    exec (aluInstr op a) (recast g h s) = mapNext (recast g h) (exec (aluInstr op a) s) := by
  have hovf : (recast g h s).ovf = s.ovf := rfl
  rw [Faults.exec_aluInstr_operands, Faults.exec_aluInstr_operands, hovf,
    aluOut_mode hop (recast g h s).signedMode s.signedMode]
  apply recast_execAlu m hd
  split
  · exact recast_binary m _ hd s
  · exact recast_unary m _ a s

/-! ### COPY and HALT -/

theorem recast_copyOne (m : OnlyMode g h) {a : Args} (hd : a.dst = .cr → ∀ w, g w = w) (s : State) :
    copyOne a (recast g h s) = (copyOne a s).map (recast g h) := by
  unfold copyOne
  rw [sourceValue, sourceValue, recast_sourceAt m]
  cases sourceAt 0#16 a s with
  | error e => rfl
  | ok p =>
    obtain ⟨v, s1⟩ := p
    simp only [Except.map, Prod.map, id, recast_moveIncrement, recast_storeResult m hd]
    cases storeResult a.dst v (moveIncrement a s1) with
    | error e => rfl
    | ok u => exact congrArg Except.ok (recast_nextPc a.dst u)

/-- Before the last word the control register is not overwritten. -/
theorem recast_copyWord (m : OnlyMode g h) {a : Args} {last : Bool}
    (hd : a.dst = .cr → last = true → ∀ w, g w = w) (k : Word) (s : State) :
    copyWord a k last (recast g h s) = (copyWord a k last s).map (recast g h) := by
  unfold copyWord
  rw [recast_sourceAt m]
  cases sourceAt k a s with
  | error e => rfl
  | ok p =>
    obtain ⟨v, s1⟩ := p
    simp only [Except.map, Prod.map, id]
    split
    · next hstores =>
      have hcr : a.dst = .cr → ∀ w, g w = w := fun hc => hd hc (by simpa [hc, Dst.isMem] using hstores)
      exact recast_storeAt m k hcr v s1
    · rfl

theorem recast_copyWords (m : OnlyMode g h) {a : Args} (hd : a.dst = .cr → ∀ w, g w = w) (n : Nat)
    (k : Word) (s : State) :
    copyWords a n k (recast g h s) = (copyWords a n k s).map (recast g h) := by
  induction n generalizing k s with
  | zero => exact recast_copyWord m (fun hc _ => hd hc) k s
  | succ n ih =>
    unfold copyWords
    rw [recast_copyWord m (fun hc _ => hd hc)]
    cases copyWord a k false s with
    | error e => rfl
    | ok u => exact ih _ u

/-- A COPY does on the recast state what it does on the state before. -/
theorem recast_execCopy (m : OnlyMode g h) {a : Args} (hd : a.dst = .cr → ∀ w, g w = w) (s : State) :
    execCopy a (recast g h s) = mapNext (recast g h) (execCopy a s) := by
  obtain ⟨-, -, hwidth, -⟩ := recast_accessors m s
  have hmode : (recast g h s).cfg.copyWidthMode = s.cfg.copyWidthMode := m.copyWidthMode s.cfg
  have hflags : (recast g h s).flags = s.flags := rfl
  have hwide : copyWide a (recast g h s) = (copyWide a s).map (recast g h) := by
    unfold copyWide
    rw [hwidth, recast_copyWords m hd]
    cases copyWords a s.copyWidth.toNat 0#16 s with
    | error e => rfl
    | ok u => exact congrArg Except.ok (recast_nextPc a.dst u)
  unfold execCopy
  rw [hwidth, hmode, hflags, recast_copyOne m hd, hwide, toOutcome_map, toOutcome_map]
  split
  · split
    · rfl
    · cases s.cfg.copyWidthMode
      · rfl
      · cases a.inc <;> rfl
  · rfl

theorem recast_execHalt (m : OnlyMode g h) (e : Effect) (s : State) :
    execHalt e (recast g h s) = mapNext (recast g h) (execHalt e s) := by
  have hhalt : (recast g h s).setHalt = recast g h s.setHalt :=
    congrArg (fun c => { s with cr := c, cfg := h s.cfg }) (m.halt s.cr)
  have hflags : (recast g h s).flags = s.flags := rfl
  unfold execHalt
  rw [hflags, hhalt]
  split <;> rfl

/-- Every instruction that does not respect the mode does on the recast state what it does on the state
before, unless it takes the changed control register as an operand or overwrites it. -/
theorem recast_exec (m : OnlyMode g h) {i : Instr} {s : State} (hi : respectsMode i = false)
    (hd : ∀ a, args? i = some a → a.dst = .cr → ∀ w, g w = w) :
    exec i (recast g h s) = mapNext (recast g h) (exec i s) := by
  obtain ⟨e, rfl⟩ | ⟨a, rfl⟩ | ⟨op, a, rfl⟩ := instr_shapes i
  · exact recast_execHalt m e s
  · exact recast_execCopy m (hd a rfl) s
  · exact recast_aluInstr m hi (hd a (args_aluInstr op a))

end

/-! ### The control register overwritten without being read -/

/-- A finished ALU instruction that stored to the control register leaves nothing of the flipped bit. -/
theorem flipG_finishAlu {a : Args} (hd : a.dst = .cr) (o : AluOut) (s : State) :
    finishAlu a o (flipG s) = finishAlu a o s := by
  have hmove : moveIncrement a (flipG s) = flipG (moveIncrement a s) :=
    recast_moveIncrement (g := (· ^^^ 0x0100#16)) (h := id) a s
  rw [finishAlu, finishAlu, hmove, hd]
  rfl

/-- A one-operand ALU instruction that stores to the control register leaves nothing of the flipped
bit. -/
theorem flipG_execAlu_unary {f : Word → AluOut} {a : Args} {s : State} (hd : a.dst = .cr)
    (heff : effectHolds a.eff s.flags = true) :
    execAlu (unary f) a (flipG s) = execAlu (unary f) a s := by
  have hread : unary f a (flipG s) = recastRead _ _ (unary f a s) := recast_unary onlyMode_flipG f a s
  have heffG : effectHolds a.eff (flipG s).flags = true := heff
  rw [execAlu, execAlu, if_pos heff, if_pos heffG, hread]
  cases unary f a s with
  | error e => rfl
  | ok p => exact congrArg toOutcome (flipG_finishAlu hd p.1 p.2)

/-- A COPY of one word to the control register leaves nothing of the flipped bit. -/
theorem flipG_copyOne {a : Args} (hd : a.dst = .cr) (s : State) : copyOne a (flipG s) = copyOne a s := by
  have hread : sourceAt 0#16 a (flipG s) = recastRead _ _ (sourceAt 0#16 a s) :=
    recast_sourceAt onlyMode_flipG 0#16 a s
  rw [copyOne, copyOne, sourceValue, sourceValue, hread]
  cases sourceAt 0#16 a s with
  | error e => rfl
  | ok p =>
    simp only [Except.map, Prod.map, recast_moveIncrement, hd]
    rfl

/-- The words of a wide COPY to the control register leave nothing of the flipped bit. -/
theorem flipG_copyWords {a : Args} (hd : a.dst = .cr) (n : Nat) (k : Word) (s : State) :
    copyWords a n k (flipG s) = copyWords a n k s := by
  induction n generalizing k s with
  | zero =>
    have hread : sourceAt k a (flipG s) = recastRead _ _ (sourceAt k a s) :=
      recast_sourceAt onlyMode_flipG k a s
    rw [copyWords, copyWords, copyWord, copyWord, hread, hd]
    cases sourceAt k a s <;> rfl
  | succ n ih =>
    have hword : copyWord a k false (flipG s) = (copyWord a k false s).map flipG :=
      recast_copyWord onlyMode_flipG (fun _ hl => absurd hl Bool.false_ne_true) k s
    rw [copyWords, copyWords, hword]
    cases copyWord a k false s with
    | error e => rfl
    | ok u => exact ih _ u

/-- A COPY to the control register leaves nothing of the flipped bit. -/
theorem flipG_execCopy {a : Args} {s : State} (hd : a.dst = .cr)
    (heff : effectHolds a.eff s.flags = true) : execCopy a (flipG s) = execCopy a s := by
  obtain ⟨-, -, hwidth, -⟩ := recast_accessors onlyMode_flipG s
  have heffG : effectHolds a.eff (flipG s).flags = true := heff
  have hwidthG : (flipG s).copyWidth = s.copyWidth := hwidth
  have hwide : copyWide a (flipG s) = copyWide a s := by
    rw [copyWide, copyWide, hwidthG, flipG_copyWords hd]
  rw [execCopy, execCopy, if_pos heff, if_pos heffG, hwidthG, flipG_copyOne hd, hwide]
  rfl

/-! ### Add, subtract and multiply in the two modes -/

/-- One two-operand instruction with two operations that give the same result, on one state: it leaves the
same but for the flags and the overflow register, and writes the flags of each operation or neither. -/
theorem execAlu_same_result {f f' : Word → Word → AluOut} {a : Args} {s t u : State}
    (hresult : ∀ dv sv, (f dv sv).result = (f' dv sv).result)
    (ht : execAlu (binary f) a s = .next t) (hu : execAlu (binary f') a s = .next u) :
    ∃ (base : State) (w w' : Flags) (o o' : Word), t = base.setAlu w o ∧ u = base.setAlu w' o' ∧
      (w = w' ∨ ∃ dv sv, w = (f dv sv).flags ∧ w' = (f' dv sv).flags) := by
  obtain ⟨heff, hskip, rfl⟩ | ⟨heff, hskip, o, s1, hread, rfl⟩ | ⟨heff, o, s1, hread, hfinish⟩ :=
      execAlu_next ht <;>
    obtain ⟨heff', hskip', rfl⟩ | ⟨heff', hskip', o', s1', hread', rfl⟩ |
      ⟨heff', o', s1', hread', hfinish'⟩ := execAlu_next hu
  case inl.inl => exact ⟨s.advancePc, s.flags, s.flags, s.ovf, s.ovf, rfl, rfl, .inl rfl⟩
  case inr.inl.inr.inl =>
    obtain ⟨-, -, hp⟩ := (binary_ok f a s _).mp hread
    obtain ⟨-, -, hp'⟩ := (binary_ok f' a s _).mp hread'
    obtain ⟨rfl, rfl⟩ := Prod.mk.inj hp
    obtain ⟨rfl, rfl⟩ := Prod.mk.inj hp'
    exact ⟨(logged s _).advancePc, _, _, _, _, rfl, rfl, .inr ⟨_, _, rfl, rfl⟩⟩
  case inr.inr.inr.inr =>
    obtain ⟨-, -, hp⟩ := (binary_ok f a s _).mp hread
    obtain ⟨-, -, hp'⟩ := (binary_ok f' a s _).mp hread'
    obtain ⟨rfl, rfl⟩ := Prod.mk.inj hp
    obtain ⟨rfl, rfl⟩ := Prod.mk.inj hp'
    obtain ⟨v, hstore, rfl⟩ := finishAlu_store hfinish
    obtain ⟨v', hstore', rfl⟩ := finishAlu_store hfinish'
    rw [← hresult, hstore] at hstore'
    obtain rfl := Except.ok.inj hstore'
    exact ⟨nextPc a.dst v, _, _, _, _, rfl, rfl, .inr ⟨_, _, rfl, rfl⟩⟩
  -- In the other six the two executions disagree on the effect or on FLAGS_ON_SKIP of the one state.
  case inl.inr.inl | inr.inl.inl => simp [hskip] at hskip'
  all_goals simp [heff] at heff'

/-- The result of each of the three does not depend on the mode: it is the 16-bit operation (decision
D37). -/
theorem wide_results (signed : Bool) (dv sv : Word) :
    (addOut signed dv sv).result = dv + sv ∧ (subOut signed dv sv).result = dv - sv ∧
      (mulOut signed dv sv).result = dv * sv := by
  have hdv := (Alu.ofInt_modeInt signed dv).2
  have hsv := (Alu.ofInt_modeInt signed sv).2
  refine ⟨?_, ?_, ?_⟩
  · rw [addOut, wideOut, Alu.low_half_ofInt, BitVec.ofInt_add, hdv, hsv]
  · rw [subOut, wideOut, Alu.low_half_ofInt, Alu.ofInt_sub, hdv, hsv]
  · rw [mulOut, wideOut, Alu.low_half_ofInt, BitVec.ofInt_mul, hdv, hsv]

/-- The flags of an addition and of a subtraction do not depend on the mode. -/
theorem add_sub_flags (signed signed' : Bool) (dv sv : Word) :
    (addOut signed dv sv).flags = (addOut signed' dv sv).flags ∧
      (subOut signed dv sv).flags = (subOut signed' dv sv).flags := by
  obtain ⟨hadd, hsub, -⟩ := wide_results signed dv sv
  obtain ⟨hadd', hsub', -⟩ := wide_results signed' dv sv
  constructor
  · rw [AluOut.flags, AluOut.flags, hadd, hadd']
    rfl
  · rw [AluOut.flags, AluOut.flags, hsub, hsub']
    rfl

/-- The state a two-operand instruction leaves from the flipped state is the flipped one of what the
operation of the other mode leaves. -/
theorem next_of_flipG {f : Word → Word → AluOut} {a : Args} {s u : State} (hd : a.dst ≠ .cr)
    (h : execAlu (binary f) a (flipG s) = .next u) :
    ∃ v, execAlu (binary f) a s = .next v ∧ u = flipG v := by
  have hcr : a.dst = .cr → ∀ w : Word, w ^^^ 0x0100#16 = w := fun hc => absurd hc hd
  have hexec : execAlu (binary f) a (flipG s) = mapNext flipG (execAlu (binary f) a s) :=
    recast_execAlu onlyMode_flipG hcr (recast_binary onlyMode_flipG f hcr s)
  rw [hexec] at h
  cases hv : execAlu (binary f) a s with
  | next v =>
    rw [hv] at h
    exact ⟨v, rfl, (Host.Outcome.next.inj h).symm⟩
  | fault e =>
    rw [hv] at h
    cases h
  | refused x =>
    rw [hv] at h
    cases h

/-- Two operations with one result and the same flags leave the same but for the overflow register. -/
theorem flipG_same_flags {f f' : Word → Word → AluOut} {a : Args} {s t u : State} (hd : a.dst ≠ .cr)
    (hresult : ∀ dv sv, (f dv sv).result = (f' dv sv).result)
    (hflags : ∀ dv sv, (f dv sv).flags = (f' dv sv).flags)
    (ht : execAlu (binary f) a s = .next t) (hu : execAlu (binary f') a (flipG s) = .next u) :
    u = flipG { t with ovf := u.ovf } := by
  obtain ⟨v, hv, rfl⟩ := next_of_flipG hd hu
  obtain ⟨base, w, w', o, o', rfl, rfl, hw⟩ := execAlu_same_result hresult ht hv
  obtain rfl : w = w' := by
    obtain hw | ⟨dv, sv, hw, hw'⟩ := hw
    · exact hw
    · rw [hw, hw', hflags]
  rfl

/-- Two operations with one result leave the same but for the overflow register, carry and overflow. -/
theorem flipG_same_result {f f' : Word → Word → AluOut} {a : Args} {s t u : State} (hd : a.dst ≠ .cr)
    (hresult : ∀ dv sv, (f dv sv).result = (f' dv sv).result)
    (ht : execAlu (binary f) a s = .next t) (hu : execAlu (binary f') a (flipG s) = .next u) :
    u = flipG { t with ovf := u.ovf, flags := { t.flags with c := u.flags.c, v := u.flags.v } } := by
  obtain ⟨v, hv, rfl⟩ := next_of_flipG hd hu
  obtain ⟨base, w, w', o, o', rfl, rfl, hw⟩ := execAlu_same_result hresult ht hv
  have hflags : w' = { w with c := w'.c, v := w'.v } := by
    obtain rfl | ⟨dv, sv, rfl, rfl⟩ := hw
    · rfl
    · simp only [AluOut.flags, hresult]
  exact congrArg (fun x => flipG (base.setAlu x o')) hflags

/-! ### The statement -/

/-- Settles O49: an operation that does not respect the mode never reads the flipped bit, a store to the
control register overwrites it, and the results of add, subtract and multiply are those of both modes. -/
theorem signedModeReachesFiveOperations : Obligations.SignedModeReachesFiveOperations := by
  refine ⟨fun s => beq_iff_eq, fun i s hi hcr => ?_, fun i a s hi hargs hd hone heff => ?_,
    fun i s hi => recast_exec onlyMode_flipSignedG hi (fun _ _ _ _ => rfl),
    fun op a s t u hop hd ht hu => ?_, fun a s t u hd ht hu => ?_⟩
  · by_cases hd : ∃ a, args? i = some a ∧ a.dst = .cr
    · obtain ⟨a, hargs, hd⟩ := hd
      obtain ⟨heff, hskip⟩ := hcr a hargs hd
      have heffect : effect i = a.eff := by
        obtain ⟨e, rfl⟩ | ⟨b, rfl⟩ | ⟨op, b, rfl⟩ := instr_shapes i
        · cases hargs
        · rw [← Option.some.inj hargs]
          rfl
        · rw [args_aluInstr] at hargs
          rw [effect_aluInstr, Option.some.inj hargs]
      rw [← heffect] at heff
      rw [EffectAndCopy.exec_skipped (s := s) heff (fun _ => hskip),
        EffectAndCopy.exec_skipped (s := flipG s) heff (fun _ => hskip)]
      rfl
    · exact recast_exec onlyMode_flipG hi (fun a hargs ha => absurd ⟨a, hargs, ha⟩ hd)
  · obtain ⟨e, rfl⟩ | ⟨b, rfl⟩ | ⟨op, b, rfl⟩ := instr_shapes i
    · cases hargs
    · obtain rfl := Option.some.inj hargs
      exact flipG_execCopy hd heff
    · rw [args_aluInstr] at hargs
      obtain rfl := Option.some.inj hargs
      have hunary : twoOperand op = false := hone op rfl
      have hovf : (flipG s).ovf = s.ovf := rfl
      rw [Faults.exec_aluInstr_operands, Faults.exec_aluInstr_operands, hunary, hovf,
        aluOut_mode hi (flipG s).signedMode s.signedMode]
      exact flipG_execAlu_unary hd heff
  · obtain rfl | rfl := hop
    · exact flipG_same_flags hd
        (fun dv sv => (wide_results _ dv sv).1.trans (wide_results _ dv sv).1.symm)
        (fun dv sv => (add_sub_flags _ _ dv sv).1) ht hu
    · exact flipG_same_flags hd
        (fun dv sv => (wide_results _ dv sv).2.1.trans (wide_results _ dv sv).2.1.symm)
        (fun dv sv => (add_sub_flags _ _ dv sv).2) ht hu
  · exact flipG_same_result hd
      (fun dv sv => (wide_results _ dv sv).2.2.trans (wide_results _ dv sv).2.2.symm) ht hu

end Sys2Proof.SignedMode
